-- ==== Sys2Proof/Word.lean ====
section
/-!
DEFINITION. The vocabulary of the block: bytes, command words, levels, directions, the six bus lines and
the names of the fourteen operations (00_scope.md R8, R9; 10_state.md R20; 30_encoding.md R80).
Plain types only; everything that reads or writes them stands in Machine/Ops.lean.
-/

namespace Sys2Proof

/-- A byte in transit or an element of a buffer: 8 bits, unsigned (R8, R58). -/
abbrev Byte := BitVec 8

/-- A command word: 16 bits, bit 0 least significant (R8, R81). -/
abbrev CmdWord := BitVec 16

/-- An electrical level: `true` is 1, high; `false` is 0, low (R8). A data bit 1 is the level high (R56). -/
abbrev Level := Bool

/-- A direction: `IN` (0, input, high-impedance) or `OUT` (1, output, driving) (R8). -/
inductive Dir where
  | input
  | output
  deriving DecidableEq, Repr, Inhabited

/-- The six bus lines, in index order 0 to 5 (R9, R20). -/
inductive Line where
  /-- `SEL`, the source's Select. -/
  | sel
  /-- `CLK`, the source's Clock. -/
  | clk
  /-- `DAT`, the source's Data. -/
  | dat
  /-- `PWR`, the source's PowerSwitch. -/
  | pwr
  /-- `IRQ`, the source's DataReadyIrq. -/
  | irq
  /-- `FD`, the source's FieldDetect. -/
  | fd
  deriving DecidableEq, Repr, Inhabited

/-- One value for each of the six lines (R20). -/
structure Lines (α : Type) where
  sel : α
  clk : α
  dat : α
  pwr : α
  irq : α
  fd  : α
  deriving DecidableEq, Repr, Inhabited

/-- The names of the fourteen operations, in the order of the operation surface (R80). -/
inductive Op where
  | init | disable | suspend | resume | dataReady | fieldPresent
  | setWakeOnField | setWakeOnDataReady
  | beginSend | endSend | sendByte | sendBuffer | getByte | getBuffer
  deriving DecidableEq, Repr, Inhabited

end Sys2Proof
end

