-- ==== Sys2Proof/Config.lean ====
section
/-!
DEFINITION. What is fixed for one block (00_scope.md R6) and the values the spec leaves open. The open
values are opaque constants: nothing in Lean can evaluate one or prove anything of it, so a
theorem about the model holds for every value of each of them.
-/

namespace Sys2Proof

/-- `T_SETTLE`, the settle delay, in microseconds (R6, R104). -/
def Config.tSettle : Nat := 1

/-- `T_POWERUP`, the power-up settle delay, in microseconds (R6, R104). -/
def Config.tPowerup : Nat := 50

/-- `BYTE_BITS`, bits per byte in transit (R6). -/
def Config.byteBits : Nat := 8

/-- The width of the length field of a command word (R82). `LEN_BITS` itself stays open: a length is any natural
number where an operation takes one (R158). -/
def Config.cmdLenBits : Nat := 11

/-- `WAKE_REFCOUNT`: false is the original behaviour and the source's default (R6, R136). It only
chooses what `State.reset` is; a state carries its own variant (see `WakeFlags.cnt`). -/
def Config.wakeRefcount : Bool := false

/-- `RESET_LAT`, the latch of each line after reset: OPEN (R6, R40, D4). Log 2. -/
opaque Config.resetLat : Lines Level

/-- `RESET_WK[2]`, the shared wake enable after reset: OPEN (R6, R40, D5). Log 3. -/
opaque Config.resetGie : Bool

/-- `RESET_WK[1]`, the data-ready mask bit after reset: OPEN (R6, R40, D5). Log 3. -/
opaque Config.resetDr : Bool

/-- `RESET_WK[0]`, the field-detect mask bit after reset: OPEN (R6, R40, D5). Log 3. -/
opaque Config.resetFd : Bool

/-- A free draw: the external level an input line shows at a `PinRead`, when the state's own list of draws is
used up (R23, R102, D11). Log 5. -/
opaque Config.extLevel : Nat → Level

/-- The content of the shift register at an operation boundary: unspecified (R26, D20). Log 4. -/
opaque Config.freeSr : Nat → Byte

/-- The content of the bit counter at an operation boundary: unspecified within its range 0 to 8 (R27, D20). Log 4. -/
opaque Config.freeBitcnt : Nat → Fin 9

/-- The content of the buffer counter at an operation boundary: unspecified (R28, D20). Log 4. -/
opaque Config.freeIdx : Nat → Nat

end Sys2Proof
end

