-- ==== Sys2Proof/Syntax.lean ====
section
/-!
DEFINITION. The instructions of the block: the fourteen operations of the operation surface with their operands
(30_encoding.md R80), one constructor for each row of spec/opcode_table.json.
-/

namespace Sys2Proof

/-- An operation with its operands (R80). `present` says whether the buffer reference is there (R83, bit `p`);
the bytes of a buffer do not travel with the operation (R81), they stand in the state. `len` is a natural number
(R158); a command word carries one below 2048 only (R83), see WellFormed.lean. -/
inductive Instr where
  /-- `init()` (R120). -/
  | init
  /-- `disable()` (R121). -/
  | disable
  /-- `suspend()` (R130). -/
  | suspend
  /-- `resume()` (R131). -/
  | resume
  /-- `dataReady() -> bool` (R132). -/
  | dataReady
  /-- `fieldPresent() -> bool` (R133). -/
  | fieldPresent
  /-- `setWakeOnField(bool)` (R134, R136). -/
  | setWakeOnField (enabled : Bool)
  /-- `setWakeOnDataReady(bool)` (R135, R136). -/
  | setWakeOnDataReady (enabled : Bool)
  /-- `beginSend()` (R151). -/
  | beginSend
  /-- `endSend()` (R152). -/
  | endSend
  /-- `sendByte(byte)` (R153). -/
  | sendByte (value : Byte)
  /-- `sendBuffer(bytes, len)` (R154). -/
  | sendBuffer (present : Bool) (len : Nat)
  /-- `getByte() -> byte` (R155). -/
  | getByte
  /-- `getBuffer(len) -> bytes` (R156). -/
  | getBuffer (present : Bool) (len : Nat)
  deriving DecidableEq, Repr

end Sys2Proof
end

