-- ==== Sys2Proof/WellFormed.lean ====
section
/-!
DEFINITION. Which instructions a command word can carry: every one whose length fits the 11 bits of
format L (30_encoding.md R82, R83). No other operand has a value that does not fit.
-/

namespace Sys2Proof

/-- A length fits the field `n` of a command word (R83: "an unsigned natural number 0 to 2047"). -/
def lenFits (len : Nat) : Bool := len < 2 ^ Config.cmdLenBits

/-- The check of an instruction: its length, if it has one, fits the command word. -/
def Instr.wellFormed : Instr → Bool
  | .init => true
  | .disable => true
  | .suspend => true
  | .resume => true
  | .dataReady => true
  | .fieldPresent => true
  | .setWakeOnField _ => true
  | .setWakeOnDataReady _ => true
  | .beginSend => true
  | .endSend => true
  | .sendByte _ => true
  | .sendBuffer _ len => lenFits len
  | .getByte => true
  | .getBuffer _ len => lenFits len

/-- The instruction passes the check. -/
abbrev WellFormed (i : Instr) : Prop := i.wellFormed = true

end Sys2Proof
end

