-- ==== Sys2Proof/Decode.lean ====
section
/-!
DEFINITION. The decoder, total on the 65536 command words, and the encoder (30_encoding.md R81 to R88).
Decoding reads no state (R88). A word that selects no operation is rejected by name (R85).
-/

namespace Sys2Proof

/-- Why a command word has no instruction. -/
inductive DecodeError where
  /-- `IllegalCommand(word)`: the word matches no row of the opcode map (R85, R182). -/
  | illegalCommand (word : CmdWord)
  deriving DecidableEq, Repr

/-- Bits 15 to 12, the opcode (R81). -/
def opField (w : CmdWord) : BitVec 4 := w.extractLsb' 12 4

/-- Bits 11 to 0, the argument field (R81). -/
def argField (w : CmdWord) : BitVec 12 := w.extractLsb' 0 12

/-- Format N: the whole argument field must be zero (R82). -/
def decodeN (w : CmdWord) (i : Instr) : Except DecodeError Instr :=
  if argField w = 0#12 then .ok i else .error (.illegalCommand w)

/-- Format F: bits 11 to 1 must be zero, bit 0 is the flag (R82, R83). -/
def decodeF (w : CmdWord) (mk : Bool → Instr) : Except DecodeError Instr :=
  if w.extractLsb' 1 11 = 0#11 then .ok (mk (w.getLsbD 0)) else .error (.illegalCommand w)

/-- Format V: bits 11 to 8 must be zero, bits 7 to 0 are the byte (R82, R83). -/
def decodeV (w : CmdWord) (mk : Byte → Instr) : Except DecodeError Instr :=
  if w.extractLsb' 8 4 = 0#4 then .ok (mk (w.extractLsb' 0 8)) else .error (.illegalCommand w)

/-- Format L: bit 11 says whether the buffer is present, bits 10 to 0 are the length, not scaled (R82, R83). -/
def decodeL (w : CmdWord) (mk : Bool → Nat → Instr) : Except DecodeError Instr :=
  .ok (mk (w.getLsbD 11) (w.extractLsb' 0 11).toNat)

/-- The decoder (R84, R88): the opcode chooses the row, the row's format takes the argument field apart. -/
def decode (w : CmdWord) : Except DecodeError Instr :=
  match (opField w).toNat with
  | 0x0 => decodeN w .init
  | 0x1 => decodeN w .disable
  | 0x2 => decodeN w .suspend
  | 0x3 => decodeN w .resume
  | 0x4 => decodeN w .dataReady
  | 0x5 => decodeN w .fieldPresent
  | 0x6 => decodeF w .setWakeOnField
  | 0x7 => decodeF w .setWakeOnDataReady
  | 0x8 => decodeN w .beginSend
  | 0x9 => decodeN w .endSend
  | 0xA => decodeV w .sendByte
  | 0xB => decodeL w .sendBuffer
  | 0xC => decodeN w .getByte
  | 0xD => decodeL w .getBuffer
  | _ => .error (.illegalCommand w)

/-- The operation an instruction is of (R80). -/
def Instr.op : Instr → Op
  | .init => .init
  | .disable => .disable
  | .suspend => .suspend
  | .resume => .resume
  | .dataReady => .dataReady
  | .fieldPresent => .fieldPresent
  | .setWakeOnField _ => .setWakeOnField
  | .setWakeOnDataReady _ => .setWakeOnDataReady
  | .beginSend => .beginSend
  | .endSend => .endSend
  | .sendByte _ => .sendByte
  | .sendBuffer _ _ => .sendBuffer
  | .getByte => .getByte
  | .getBuffer _ _ => .getBuffer

/-- The opcode of each operation, in the order of the operation surface (R84). -/
def opcodeOf : Op → BitVec 4
  | .init => 0x0#4
  | .disable => 0x1#4
  | .suspend => 0x2#4
  | .resume => 0x3#4
  | .dataReady => 0x4#4
  | .fieldPresent => 0x5#4
  | .setWakeOnField => 0x6#4
  | .setWakeOnDataReady => 0x7#4
  | .beginSend => 0x8#4
  | .endSend => 0x9#4
  | .sendByte => 0xA#4
  | .sendBuffer => 0xB#4
  | .getByte => 0xC#4
  | .getBuffer => 0xD#4

/-- The argument field of an instruction, by its format (R82, R83). A length that does not fit is cut to its
low 11 bits; such an instruction is not well formed. -/
def encodeArg : Instr → BitVec 12
  | .init => 0#12
  | .disable => 0#12
  | .suspend => 0#12
  | .resume => 0#12
  | .dataReady => 0#12
  | .fieldPresent => 0#12
  | .setWakeOnField e => 0#11 ++ BitVec.ofBool e
  | .setWakeOnDataReady e => 0#11 ++ BitVec.ofBool e
  | .beginSend => 0#12
  | .endSend => 0#12
  | .sendByte v => 0#4 ++ v
  | .sendBuffer p n => BitVec.ofBool p ++ BitVec.ofNat 11 n
  | .getByte => 0#12
  | .getBuffer p n => BitVec.ofBool p ++ BitVec.ofNat 11 n

/-- The command word of an instruction: the opcode above the argument field (R81). -/
def encode (i : Instr) : CmdWord := opcodeOf i.op ++ encodeArg i

/-- A row of the opcode map (R84): a word selects the operation when `word and mask = match`. -/
structure OpcodeRow where
  op    : Op
  mask  : CmdWord
  value : CmdWord
  deriving DecidableEq, Repr

/-- The opcode map as the spec prints it (R84), in its columns Mask and Match. -/
def opcodeMap : List OpcodeRow :=
  [⟨.init,               0xFFFF#16, 0x0000#16⟩,
   ⟨.disable,            0xFFFF#16, 0x1000#16⟩,
   ⟨.suspend,            0xFFFF#16, 0x2000#16⟩,
   ⟨.resume,             0xFFFF#16, 0x3000#16⟩,
   ⟨.dataReady,          0xFFFF#16, 0x4000#16⟩,
   ⟨.fieldPresent,       0xFFFF#16, 0x5000#16⟩,
   ⟨.setWakeOnField,     0xFFFE#16, 0x6000#16⟩] ++
  [⟨.setWakeOnDataReady, 0xFFFE#16, 0x7000#16⟩,
   ⟨.beginSend,          0xFFFF#16, 0x8000#16⟩,
   ⟨.endSend,            0xFFFF#16, 0x9000#16⟩,
   ⟨.sendByte,           0xFF00#16, 0xA000#16⟩,
   ⟨.sendBuffer,         0xF000#16, 0xB000#16⟩,
   ⟨.getByte,            0xFFFF#16, 0xC000#16⟩,
   ⟨.getBuffer,          0xF000#16, 0xD000#16⟩]

/-- The command word whose bits are `w`, of which the table gives the low `nbits`: every bit above them is 0. -/
def tableWord (nbits w : Nat) : CmdWord := BitVec.ofNat 16 (w % 2 ^ nbits)

/-- The instruction the decoder reads from a table word: one 16-bit word, numbered as the table numbers it
(R81, R86), none where the decoder rejects it. A number with a bit set above bit 15 is no command word. -/
def decodeTableWord (nbits w : Nat) : Option Instr :=
  if w % 2 ^ nbits < 2 ^ 16 then
    match decode (tableWord nbits w) with
    | .ok i => some i
    | .error _ => none
  else none

end Sys2Proof
end

