-- ==== Sys2Proof/Machine/State.lean ====
section
/-!
DEFINITION. The state of the block, with the bookkeeping and the outside world's inputs the step reads,
all of it plain data; the faults and the refusals; the state after reset.
(10_state.md R20 to R43; 20_memory.md R50 to R53; 30_encoding.md R87, R91; 42_power_session.md R137.)
-/

namespace Sys2Proof.Machine

/-- The two wake sources: a change of the level of `FD` (field-detect) or of `IRQ` (data-ready) (R31, R189). -/
inductive WakeSource where
  | fd
  | dr
  deriving DecidableEq, Repr

/-- The events the micro-operations and the wake watcher append to `TRACE` (R37). -/
inductive Event where
  /-- `EvDir(L, d)`: the direction of `l` became `d`. -/
  | dir (l : Line) (d : Dir)
  /-- `EvDrive(L, v)`: the latch of `l` became `v`. -/
  | drive (l : Line) (v : Level)
  /-- `EvSample(L, v)`: `l` was sampled and read `v`. -/
  | sample (l : Line) (v : Level)
  /-- `EvDelay(n)`: at least `n` microseconds passed. -/
  | delay (n : Nat)
  /-- `EvWake(s)`: wake source `src` fired. -/
  | wake (src : WakeSource)
  deriving DecidableEq, Repr

/-- An event with the value of `NOW` when it happened (R37). -/
structure Stamped where
  time  : Nat
  event : Event
  deriving DecidableEq, Repr

/-- The three wake flags (R31) and the reference count of the variant (R32). -/
structure WakeFlags where
  /-- `WK.FD`, the mask bit of the field-detect source. -/
  fd  : Bool
  /-- `WK.DR`, the mask bit of the data-ready source. -/
  dr  : Bool
  /-- `WK.GIE`, the shared top-level enable flag. -/
  gie : Bool
  /-- `WK.CNT`, which exists only when `WAKE_REFCOUNT` is true (R32): `none` is the default block, `some c` the
  variant with its count, 2 bits. No operation makes the one into the other. -/
  cnt : Option (BitVec 2)
  deriving DecidableEq, Repr

/-- The status of a response (R87), an error with what its `raise` records (R10); `statusCode` is its 2-bit code. Code 3 is
reserved and never produced (U22). -/
inductive Status where
  /-- The operation completed. -/
  | ok
  /-- `InvalidArgument(op)`: it "records the operation that raised it and nothing else" (R181). -/
  | invalidArgument (op : Op)
  /-- `IllegalCommand(word)`: the word that selects no operation (R85, R182). -/
  | illegalCommand (word : CmdWord)
  deriving DecidableEq, Repr

/-- The response a command completes with (R87). -/
structure Response where
  status : Status
  val    : Byte
  deriving DecidableEq, Repr

/-- A buffer of the caller: its elements by index, in strictly rising order of index (R50, R52). An index that is not
listed has no element, so no entry can equal what an unlisted index reads as. -/
abbrev Memory := List Host.Cell

/-- The canonical form of a buffer: the indices rise strictly. -/
def Memory.wf : Memory → Bool
  | [] => true
  | [_] => true
  | (a, _) :: (b, v) :: rest => a < b && Memory.wf ((b, v) :: rest)

/-- A move of the world outside the block (R11, R91): what the next step is. -/
inductive Input where
  /-- The host main context issues a command word (R81, R91). -/
  | command (word : CmdWord)
  /-- The host puts other buffers in place: the bytes of the transmit buffer and of the receive buffer (R52, R91). -/
  | buffers (tx rx : List Byte)
  /-- The environment changes the external level of the line of a wake source (R137). -/
  | pinChange (src : WakeSource)
  /-- The one reset (R211), between two operations. -/
  | reset
  /-- The host issues a command word, and the reset strikes when `after` micro-operations of the operation are done
  (R211: "at any moment, including the middle of an operation"). -/
  | cut (word : CmdWord) (after : Nat)
  deriving DecidableEq, Repr

/-- The whole state: the block's own (`dir` to `idx`), the model's bookkeeping (`now`, `trace`), what the block's ports
have shown and hold (`responses`, `tx`, `rx`), and the outside world's inputs (`inputs` to `fresh`), which are no state of
the block (R42) and stand here because a step is a function of the state. -/
structure State where
  /-- `DIR[L]`, the direction bits (R21). -/
  dir : Lines Dir
  /-- `LAT[L]`, the output latches (R22). -/
  lat : Lines Level
  /-- `WK`, the wake flags and, in the variant, their count (R31, R32). -/
  wk : WakeFlags
  /-- `SR`, the shift register (R26). -/
  sr : Byte
  /-- `BITCNT`, range 0 to 8 (R27). -/
  bitcnt : Fin 9
  /-- `IDX`, the buffer counter (R28). -/
  idx : Nat
  /-- `NOW`, virtual time in microseconds (R36). -/
  now : Nat
  /-- `TRACE`, oldest event first (R37). -/
  trace : List Stamped
  /-- The responses given so far, oldest first (R12 (b), R87). -/
  responses : List Response
  /-- The caller's transmit buffer (R52). -/
  tx : Memory
  /-- The caller's receive buffer (R52). -/
  rx : Memory
  /-- The moves of the outside world that land between operations, the next one first (R11, R91). -/
  inputs : List Input
  /-- The level changes of `FD` and `IRQ` that land inside an operation: the entry at the head lists, in order, those
  that happen just before the next micro-operation (R5, R137). When the list is used up none happens. -/
  changes : List (List WakeSource)
  /-- The levels the next `PinRead`s of input lines find, the next one first (R23). When the list is used up
  each is a free value, `Config.extLevel`. -/
  draws : List Level
  /-- The MODEL's own counter: the number of the next free level of the environment. No part of the block. -/
  drawn : Nat
  /-- The MODEL's own counter: the number of the next free content of the working registers. No part of the block. -/
  fresh : Nat
  deriving DecidableEq, Repr

/-- Why a step ends in a fault: the contract violations of R183, to which the source gives no behaviour. The fault
stands for the sticky mark `FAULT` (R38): the run stops there, so nothing can be claimed of a later state (D26). Each
carries the operation and the events appended up to then. All are safe: the block does something unknown here, and the
model proves nothing of it. -/
inductive Fault where
  /-- `NotEnabled(op)`: raised by `suspend`, `resume`, `beginSend`, `getByte` and `getBuffer` when the line they drive is
  an input, and by a `PinWrite` of `SEL`, `CLK` or `PWR` while it is an input (R101, R183). Safe. -/
  | notEnabled (op : Op) (events : List Stamped)
  /-- `NotSending(op)`: raised by `endSend`, `sendByte` and `sendBuffer` when `DAT` is an input, and by a `PinWrite` of
  `DAT` while it is an input (R101, R183). Safe. -/
  | notSending (op : Op) (events : List Stamped)
  /-- `NotIdle(op)`: raised by `init`, `disable`, `beginSend`, `getByte` and `getBuffer` when `DAT` is an output
  (R183). Safe. -/
  | notIdle (op : Op) (events : List Stamped)
  /-- `BufferShort(op)`: raised by `sendBuffer` at the first missing element of the transmit buffer, after the
  earlier bytes have gone out (R52, R154, R183). Safe. -/
  | bufferShort (op : Op) (events : List Stamped)
  deriving DecidableEq, Repr

/-- Why a step is refused. -/
inductive Refusal where
  /-- An arm of `exec` whose instruction has no meaning yet; no arm is one. Safe. -/
  | notModelled (mnemonic : String)
  deriving DecidableEq, Repr

/-- The outcome of a step or of a part of one. -/
abbrev Result := Host.Outcome State Fault Refusal

/-- The state after reset (R40), in the default block or in the variant. The latches and the wake flags
are the open parameters `RESET_LAT` and `RESET_WK` (logs 2, 3), the working registers hold unspecified values (log 4),
and the outside world has supplied nothing yet (log 7). -/
def State.resetWith (refcount : Bool) : State where
  dir := ⟨.input, .input, .input, .input, .input, .input⟩
  lat := Config.resetLat
  wk := {
    fd := Config.resetFd
    dr := Config.resetDr
    gie := Config.resetGie
    cnt := if refcount then some (BitVec.ofNat 2 (Config.resetDr.toNat + Config.resetFd.toNat)) else none }
  sr := Config.freeSr 0
  bitcnt := Config.freeBitcnt 0
  idx := Config.freeIdx 0
  now := 0
  trace := []
  responses := []
  tx := []
  rx := []
  inputs := []
  changes := []
  draws := []
  drawn := 0
  fresh := 1

/-- The machine right after reset (R40, R210), with `WAKE_REFCOUNT` at the source's default (R6). -/
def State.reset : State := State.resetWith Config.wakeRefcount

end Sys2Proof.Machine
end

