-- ==== Sys2Proof/Machine/Flags.lean ====
section
/-!
DEFINITION. The predicates read off the state (10_state.md R24, R25, R33), the two rules that compute the wake flags
(42_power_session.md R134 to R136), and the control state seen as registers (10_state.md R35).
-/

namespace Sys2Proof

/-- The value of one line. -/
def Lines.get {α : Type} (ls : Lines α) : Line → α
  | .sel => ls.sel
  | .clk => ls.clk
  | .dat => ls.dat
  | .pwr => ls.pwr
  | .irq => ls.irq
  | .fd => ls.fd

/-- The lines with the value of one line replaced. -/
def Lines.set {α : Type} (ls : Lines α) (l : Line) (v : α) : Lines α :=
  match l with
  | .sel => { ls with sel := v }
  | .clk => { ls with clk := v }
  | .dat => { ls with dat := v }
  | .pwr => { ls with pwr := v }
  | .irq => { ls with irq := v }
  | .fd => { ls with fd := v }

end Sys2Proof

namespace Sys2Proof.Machine

/-- `Enabled`: `SEL`, `CLK` and `PWR` are outputs (R24). -/
def enabled (s : State) : Bool :=
  s.dir.sel = .output && s.dir.clk = .output && s.dir.pwr = .output

/-- `Disabled`: `SEL`, `CLK` and `PWR` are inputs (R24). -/
def disabled (s : State) : Bool :=
  s.dir.sel = .input && s.dir.clk = .input && s.dir.pwr = .input

/-- `TE = Sending`: `DAT` is an output (R25). -/
def sending (s : State) : Bool := s.dir.dat = .output

/-- The level on a line, given the levels the environment puts on the lines at that moment (R23). -/
def pad (s : State) (ext : Lines Level) (l : Line) : Level :=
  if s.dir.get l = .output then s.lat.get l else ext.get l

/-- The mask bit of a wake source (R31). -/
def maskOf (src : WakeSource) (w : WakeFlags) : Bool :=
  match src with
  | .fd => w.fd
  | .dr => w.dr

/-- The flags with the mask bit of a wake source replaced. -/
def withMask (src : WakeSource) (v : Bool) (w : WakeFlags) : WakeFlags :=
  match src with
  | .fd => { w with fd := v }
  | .dr => { w with dr := v }

/-- `Armed(src)`: the source's own mask bit and the shared enable are both 1 (R33). -/
def armed (src : WakeSource) (w : WakeFlags) : Bool := w.gie && maskOf src w

/-- The default rule of the two wake operations (R134, R135): enabling sets the source's mask bit and the shared
flag; disabling clears the mask bit and leaves the shared flag as it is. -/
def setWakeDefault (src : WakeSource) (enable : Bool) (w : WakeFlags) : WakeFlags :=
  if enable then { withMask src true w with gie := true } else withMask src false w

/-- The rule of the reference-counted variant (R136), with `c` the count: only a change of the mask bit
counts, and the shared flag is cleared when the count comes down to zero. -/
def setWakeCounted (src : WakeSource) (enable : Bool) (c : BitVec 2) (w : WakeFlags) : WakeFlags :=
  if enable then
    if maskOf src w then w else { withMask src true w with cnt := some (c + 1), gie := true }
  else if maskOf src w then
    { withMask src false w with cnt := some (c - 1), gie := if c - 1 = 0#2 then false else w.gie }
  else w

/-- What a wake operation makes of the flags, in one indivisible step (D17): by the default rule, or by the variant's
where the block has the count (R32, R136). -/
def setWake (src : WakeSource) (enable : Bool) (w : WakeFlags) : WakeFlags :=
  match w.cnt with
  | none => setWakeDefault src enable w
  | some c => setWakeCounted src enable c w

/-- `IN` is 0 and `OUT` is 1 (R8). -/
def dirBit : Dir → Bool
  | .input => false
  | .output => true

/-- Six bits as a register, `FD` at bit 5 down to `SEL` at bit 0 (R35). -/
def linesReg (ls : Lines Bool) : BitVec 6 :=
  BitVec.ofBool ls.fd ++ BitVec.ofBool ls.irq ++ BitVec.ofBool ls.pwr ++
    BitVec.ofBool ls.dat ++ BitVec.ofBool ls.clk ++ BitVec.ofBool ls.sel

/-- The register view `DIR` (R35). -/
def dirReg (s : State) : BitVec 6 :=
  linesReg ⟨dirBit s.dir.sel, dirBit s.dir.clk, dirBit s.dir.dat, dirBit s.dir.pwr, dirBit s.dir.irq, dirBit s.dir.fd⟩

/-- The register view `LAT` (R35). -/
def latReg (s : State) : BitVec 6 := linesReg s.lat

/-- The register view `WK`, `GIE` at bit 2, `DR` at bit 1, `FD` at bit 0 (R35). -/
def wkReg (s : State) : BitVec 3 :=
  BitVec.ofBool s.wk.gie ++ BitVec.ofBool s.wk.dr ++ BitVec.ofBool s.wk.fd

/-- The read-only view `PIN` (R35), given the external levels. -/
def pinReg (s : State) (ext : Lines Level) : BitVec 6 :=
  linesReg ⟨pad s ext .sel, pad s ext .clk, pad s ext .dat, pad s ext .pwr, pad s ext .irq, pad s ext .fd⟩

/-- The event is the watcher's, not the block's own (R37). -/
def isWake (e : Stamped) : Bool :=
  match e.event with
  | .wake _ => true
  | _ => false

/-- The block's own events of a list: one for each micro-operation done (R37). -/
def ownEvents (evs : List Stamped) : List Stamped := evs.filter fun e => !isWake e

/-- How many of the events are samples (R37). -/
def sampleCount (evs : List Stamped) : Nat :=
  evs.countP fun e =>
    match e.event with
    | .sample _ _ => true
    | _ => false

/-- The events appended up to an outcome: on the next state's `TRACE`, or carried by the fault (R38). -/
def traceOf (r : Result) : List Stamped :=
  match r with
  | .next t => t.trace
  | .fault (.notEnabled _ evs) => evs
  | .fault (.notSending _ evs) => evs
  | .fault (.notIdle _ evs) => evs
  | .fault (.bufferShort _ evs) => evs
  | .refused _ => []

/-- The code of a status (R87). -/
def statusCode : Status → BitVec 2
  | .ok => 0#2
  | .invalidArgument _ => 1#2
  | .illegalCommand _ => 2#2

end Sys2Proof.Machine
end

