-- ==== Sys2Proof/Machine/Ops.lean ====
section
/-!
DEFINITION. The named operations the meanings are made of: the caller's buffers (20_memory.md R52, R53), the event
list and the wake watcher (10_state.md R37; 42_power_session.md R137), the four micro-operations
(40_pin_and_timing_primitives.md R100 to R103), responses and errors (30_encoding.md R87; 60_exceptions.md R183, R187),
and the moves of the world outside (30_encoding.md R91; 70_reset_and_hazards.md R211).
-/

namespace Sys2Proof.Machine

/-! ### The caller's buffers -/

/-- `MemRead(k, 1)`: element `k` of a buffer, none where the buffer has no such element (R52, R53). -/
def memRead (m : Memory) (k : Nat) : Option Byte :=
  match m with
  | [] => none
  | (a, v) :: rest => if a = k then some v else memRead rest k

/-- `MemWrite(k, 1, v)`: element `k` becomes `v` and no other changes (R53). -/
def memWrite (m : Memory) (k : Nat) (v : Byte) : Memory :=
  match m with
  | [] => [(k, v)]
  | (a, w) :: rest =>
    if k < a then (k, v) :: (a, w) :: rest
    else if k = a then (k, v) :: rest
    else (a, w) :: memWrite rest k v

/-- The buffer that holds these bytes at the indices from `base` on. -/
def bytesFrom (base : Nat) : List Byte → Memory
  | [] => []
  | v :: rest => (base, v) :: bytesFrom (base + 1) rest

/-- The buffer that holds these bytes, element 0 first (R52). -/
def bufferOf (bytes : List Byte) : Memory := bytesFrom 0 bytes

/-! ### Events and the wake watcher -/

/-- Append an event to `TRACE` at time `NOW` (R37). -/
def record (e : Event) (s : State) : State := { s with trace := s.trace ++ [⟨s.now, e⟩] }

/-- The wake watcher at a change of level of a source's line: an armed source fires, another does not, and no state of the
block changes (R137). -/
def watch (src : WakeSource) (s : State) : State :=
  if armed src s.wk then record (.wake src) s else s

/-- The watcher at several changes, one after the other (R191: no order is fixed between two that fall together). -/
def watchAll (srcs : List WakeSource) (s : State) : State :=
  match srcs with
  | [] => s
  | src :: rest => watchAll rest (watch src s)

/-- What the environment does just before a micro-operation: the level changes due there reach the watcher (R5, R137). -/
def envTurn (s : State) : State :=
  match s.changes with
  | [] => s
  | due :: rest => watchAll due { s with changes := rest }

/-! ### The four micro-operations -/

/-- One after the other: what follows runs from the next state, a fault ends the operation (R63, R106). -/
def andNext (r : Result) (k : State → Result) : Result :=
  match r with
  | .next s => k s
  | .fault f => .fault f
  | .refused f => .refused f

/-- `violate` at a `PinWrite` to an input line: `NotSending` for `DAT`, `NotEnabled` for `SEL`, `CLK` and `PWR` (R101).
No operation writes `IRQ` or `FD`; the kind for them is log 12. -/
def writeViolation (op : Op) (l : Line) (s : State) : Fault :=
  match l with
  | .dat => .notSending op s.trace
  | .sel | .clk | .pwr | .irq | .fd => .notEnabled op s.trace

/-- `PinDir(L, d)` (R100): the direction only, never the latch. -/
def pinDir (l : Line) (d : Dir) (s : State) : State :=
  let s := envTurn s
  record (.dir l d) { s with dir := s.dir.set l d }

/-- `PinWrite(L, v)` (R101), inside operation `op`: the latch only, and only of an output. -/
def pinWrite (op : Op) (l : Line) (v : Level) (s : State) : Result :=
  let s := envTurn s
  if s.dir.get l = .output then .next (record (.drive l v) { s with lat := s.lat.set l v })
  else .fault (writeViolation op l s)

/-- The level the environment shows at a sample: the next of the draws it has in hand, a free value when there is
none (R23, D11). -/
def drawLevel (s : State) : Level × State :=
  match s.draws with
  | v :: rest => (v, { s with draws := rest })
  | [] => (Config.extLevel s.drawn, { s with drawn := s.drawn + 1 })

/-- The state with `k` levels of the environment used up. -/
def afterDraws (k : Nat) (s : State) : State :=
  { s with draws := s.draws.drop k, drawn := s.drawn + (k - s.draws.length) }

/-- `PinRead(L)` (R102): the latch of an output, the external level of an input. -/
def pinRead (l : Line) (s : State) : Level × State :=
  let s := envTurn s
  if s.dir.get l = .output then (s.lat.get l, record (.sample l (s.lat.get l)) s)
  else
    let r := drawLevel s
    (r.1, record (.sample l r.1) r.2)

/-- `Delay(n)` (R103): virtual time advances, and the event carries the new time. -/
def delay (n : Nat) (s : State) : State :=
  let s := envTurn s
  record (.delay n) { s with now := s.now + n }

/-- The same step several times, each from the state the one before it left. -/
def repeatStep (n : Nat) (f : State → Result) (s : State) : Result :=
  match n with
  | 0 => .next s
  | k + 1 => andNext (f s) (repeatStep k f)

/-! ### Responses and errors -/

/-- The response a command completes with (R87). -/
def respond (st : Status) (v : Byte) (s : State) : State :=
  { s with responses := s.responses ++ [⟨st, v⟩] }

/-- An operation without a result completes: status `Ok`, `val = 0x00` (R87). -/
def complete (s : State) : Result := .next (respond .ok 0#8 s)

/-- An operation completes with a byte (R87). -/
def completeWith (v : Byte) (s : State) : Result := .next (respond .ok v s)

/-- An operation completes with a truth value: `0x01` for true, `0x00` for false (R87). -/
def completeBool (b : Bool) (s : State) : Result :=
  completeWith (if b then 0x01#8 else 0x00#8) s

/-- `raise InvalidArgument(op)`: the operation ends at once, and the response carries status 1 and records the operation
(R181, R187). -/
def raiseInvalidArgument (op : Op) (s : State) : Result := .next (respond (.invalidArgument op) 0#8 s)

/-- `raise IllegalCommand(word)`: no state changes and no event is appended; the response carries status 2 and records the
word (R85, R187). -/
def raiseIllegalCommand (word : CmdWord) (s : State) : Result := .next (respond (.illegalCommand word) 0#8 s)

/-- The working registers of a byte operation are unspecified once the operation is over (R26, R27, D20). -/
def releaseByteRegs (s : State) : State :=
  { s with sr := Config.freeSr s.fresh, bitcnt := Config.freeBitcnt s.fresh, fresh := s.fresh + 1 }

/-- The working registers of a buffer operation are unspecified once the operation is over (R26 to R28, D20). -/
def releaseBufferRegs (s : State) : State :=
  { s with sr := Config.freeSr s.fresh, bitcnt := Config.freeBitcnt s.fresh, idx := Config.freeIdx s.fresh,
           fresh := s.fresh + 1 }

/-! ### The world outside the block -/

/-- The command word the host issues next, with the state it is taken in; none when the next move of the outside is
another one, or there is none (R67, R91). -/
def takeCommand (s : State) : Option (CmdWord × State) :=
  match s.inputs with
  | .command w :: rest => some (w, { s with inputs := rest })
  | _ => none

/-- A command word during which the reset strikes, with the number of micro-operations done by then and the state it is
taken in; none when the next move of the outside is another one, or there is none (R211). -/
def takeCut (s : State) : Option (CmdWord × Nat × State) :=
  match s.inputs with
  | .cut w n :: rest => some (w, n, { s with inputs := rest })
  | _ => none

/-- The reset (R211): every piece of state as R40 says. What belongs to the world outside (its inputs, the caller's
buffers) stays, and so do the counts of free values, so that no free value comes twice. The parameter
`WAKE_REFCOUNT` is no state and stays (R42). -/
def resetBlock (s : State) : State :=
  { State.resetWith s.wk.cnt.isSome with
    sr := Config.freeSr s.fresh
    bitcnt := Config.freeBitcnt s.fresh
    idx := Config.freeIdx s.fresh
    tx := s.tx
    rx := s.rx
    inputs := s.inputs
    changes := s.changes
    draws := s.draws
    drawn := s.drawn
    fresh := s.fresh + 1 }

/-- The effect of a move of the outside that lands between two operations (R91, R137, R211). A command is not one of
these: `takeCommand` takes it, and `takeCut` one that a reset cuts short. -/
def outsideMove (s : State) : State :=
  match s.inputs with
  | .buffers tx rx :: rest => { s with inputs := rest, tx := bufferOf tx, rx := bufferOf rx }
  | .pinChange src :: rest => watch src { s with inputs := rest }
  | .reset :: rest => resetBlock { s with inputs := rest }
  | .command _ :: _ => s
  | .cut _ _ :: _ => s
  | [] => s

/-- The state with a command word placed as the host's next move. -/
def placeCommand (w : CmdWord) (s : State) : State := { s with inputs := .command w :: s.inputs }

end Sys2Proof.Machine
end

