-- ==== Sys2Proof/Machine/Operands.lean ====
section
/-!
DEFINITION. The operand forms of the operations: the flag, the byte, and the buffer reference with its length
(30_encoding.md R83; 60_exceptions.md R181), and the bit positions of a byte on the wire
(20_memory.md R54; 43_transfer.md R157).
-/

namespace Sys2Proof.Machine

/-- The argument check of a buffer operation (R181): the reference is present and the length is not zero. -/
def bufferArgOk (present : Bool) (len : Nat) : Bool := present && len != 0

/-- The bit of the byte in transit that step `step` (0 first) puts on the wire: bit 7 first, bit 0 last (R54, R157). -/
def wireBit (v : Byte) (step : Nat) : Level := v.getLsbD (7 - step)

/-- One step of the receive law: `SR <- (SR[6:0], b)`, the old bit 7 falls out (R155, R157). -/
def shiftInBit (sr : Byte) (b : Level) : Byte := sr.extractLsb' 0 7 ++ BitVec.ofBool b

end Sys2Proof.Machine
end

