-- ==== Sys2Proof/Machine/Lifecycle.lean ====
section
/-!
DEFINITION. The lifecycle operations `init` and `disable` (41_lifecycle.md R120, R121).
-/

namespace Sys2Proof.Machine

/-- `init()` (R120): takes control of the bus by writing all six directions, in index order; writes no level. -/
def execInit (s : State) : Result :=
  if s.dir.dat = .input then
    let s := pinDir .sel .output s
    let s := pinDir .clk .output s
    let s := pinDir .dat .input s
    let s := pinDir .pwr .output s
    let s := pinDir .irq .input s
    let s := pinDir .fd .input s
    complete s
  else .fault (.notIdle .init s.trace)

/-- `disable()` (R121): makes `SEL`, `CLK` and `PWR` inputs, and touches no latch and no wake flag. -/
def execDisable (s : State) : Result :=
  if s.dir.dat = .input then
    let s := pinDir .sel .input s
    let s := pinDir .clk .input s
    let s := pinDir .pwr .input s
    complete s
  else .fault (.notIdle .disable s.trace)

end Sys2Proof.Machine
end

