-- ==== Sys2Proof/Machine/PowerSession.lean ====
section
/-!
DEFINITION. The operations of the Power/Session Controller (42_power_session.md R130 to R136).
-/

namespace Sys2Proof.Machine

/-- `suspend()` (R130): drives `PWR` low; no delay. -/
def execSuspend (s : State) : Result :=
  if s.dir.pwr = .output then andNext (pinWrite .suspend .pwr false s) complete
  else .fault (.notEnabled .suspend s.trace)

/-- `resume()` (R131): drives `PWR` high and waits the power-up delay. -/
def execResume (s : State) : Result :=
  if s.dir.pwr = .output then
    andNext (pinWrite .resume .pwr true s) fun s => complete (delay Config.tPowerup s)
  else .fault (.notEnabled .resume s.trace)

/-- `dataReady()` (R132): true when `IRQ` reads high now. -/
def execDataReady (s : State) : Result :=
  let r := pinRead .irq s
  completeBool r.1 r.2

/-- `fieldPresent()` (R133): true when `FD` reads low now. -/
def execFieldPresent (s : State) : Result :=
  let r := pinRead .fd s
  completeBool (!r.1) r.2

/-- `setWakeOnField(enabled)` (R134; the variant R136): touches no line and takes no time. -/
def execSetWakeOnField (enable : Bool) (s : State) : Result :=
  complete { s with wk := setWake .fd enable s.wk }

/-- `setWakeOnDataReady(enabled)` (R135; the variant R136): touches no line and takes no time. -/
def execSetWakeOnDataReady (enable : Bool) (s : State) : Result :=
  complete { s with wk := setWake .dr enable s.wk }

end Sys2Proof.Machine
end

