-- ==== Sys2Proof/Machine/Transfer.lean ====
section
/-!
DEFINITION. The operations of the Transfer Engine (43_transfer.md R150 to R158).
-/

namespace Sys2Proof.Machine

/-- `beginSend()` (R151): `SEL` low, the settle delay, then `DAT` an output; writes no data level. -/
def execBeginSend (s : State) : Result :=
  if s.dir.sel = .output then
    if s.dir.dat = .input then
      andNext (pinWrite .beginSend .sel false s) fun s =>
        complete (pinDir .dat .output (delay Config.tSettle s))
    else .fault (.notIdle .beginSend s.trace)
  else .fault (.notEnabled .beginSend s.trace)

/-- `endSend()` (R152): the settle delay, `DAT` an input, the settle delay, then `SEL` high. -/
def execEndSend (s : State) : Result :=
  if s.dir.dat = .output then
    let s := delay Config.tSettle s
    let s := pinDir .dat .input s
    let s := delay Config.tSettle s
    andNext (pinWrite .endSend .sel true s) complete
  else .fault (.notSending .endSend s.trace)

/-- One bit step of `sendByte` (R153): clock low, the bit of `SR` that `BITCNT` points at, a delay, clock high, a delay. -/
def shiftOutBit (op : Op) (s : State) : Result :=
  andNext (pinWrite op .clk false s) fun s =>
  andNext (pinWrite op .dat (wireBit s.sr s.bitcnt.val) s) fun s =>
  andNext (pinWrite op .clk true (delay Config.tSettle s)) fun s =>
  let s := delay Config.tSettle s
  .next { s with bitcnt := s.bitcnt + 1 }

/-- The body of `sendByte` (R153): load `SR`, then eight bit steps. -/
def shiftOutByte (op : Op) (v : Byte) (s : State) : Result :=
  repeatStep Config.byteBits (shiftOutBit op) { s with sr := v, bitcnt := 0 }

/-- One bit step of `getByte` (R155): clock low, a delay, a sample of `DAT` shifted into `SR`, clock high, a delay. -/
def shiftInStep (op : Op) (s : State) : Result :=
  andNext (pinWrite op .clk false s) fun s =>
  let r := pinRead .dat (delay Config.tSettle s)
  let s := { r.2 with sr := shiftInBit r.2.sr r.1 }
  andNext (pinWrite op .clk true s) fun s =>
  let s := delay Config.tSettle s
  .next { s with bitcnt := s.bitcnt + 1 }

/-- The body of `getByte` (R155): eight bit steps; the byte is then in `SR`. What `SR` held before does not matter
(R26, R157), so the steps start from an empty `SR` (log 4). -/
def shiftInByte (op : Op) (s : State) : Result :=
  repeatStep Config.byteBits (shiftInStep op) { s with sr := 0#8, bitcnt := 0 }

/-- `sendByte(value)` (R153). -/
def execSendByte (v : Byte) (s : State) : Result :=
  if s.dir.dat = .output then
    andNext (shiftOutByte .sendByte v s) fun s => complete (releaseByteRegs s)
  else .fault (.notSending .sendByte s.trace)

/-- One element of `sendBuffer` (R154): the element `IDX` points at is read and shifted out; a missing one is a
violation, after the earlier ones have gone out. -/
def sendElement (s : State) : Result :=
  match memRead s.tx s.idx with
  | none => .fault (.bufferShort .sendBuffer s.trace)
  | some v => andNext (shiftOutByte .sendBuffer v s) fun s => .next { s with idx := s.idx + 1 }

/-- `sendBuffer(bytes, len)` (R154): the argument check first, then the state, then `len` elements from 0 up. -/
def execSendBuffer (present : Bool) (len : Nat) (s : State) : Result :=
  if bufferArgOk present len then
    if s.dir.dat = .output then
      andNext (repeatStep len sendElement { s with idx := 0 }) fun s => complete (releaseBufferRegs s)
    else .fault (.notSending .sendBuffer s.trace)
  else raiseInvalidArgument .sendBuffer s

/-- `getByte()` (R155): the byte goes into the response. -/
def execGetByte (s : State) : Result :=
  if s.dir.clk = .output then
    if s.dir.dat = .input then
      andNext (shiftInByte .getByte s) fun s => completeWith s.sr (releaseByteRegs s)
    else .fault (.notIdle .getByte s.trace)
  else .fault (.notEnabled .getByte s.trace)

/-- One element of `getBuffer` (R156): a byte is clocked in and becomes the element `IDX` points at. -/
def getElement (s : State) : Result :=
  andNext (shiftInByte .getBuffer s) fun s =>
  .next { s with rx := memWrite s.rx s.idx s.sr, idx := s.idx + 1 }

/-- `getBuffer(len)` (R156): the argument check first, then the state, then `len` elements from 0 up; the bytes go
into the receive buffer, none into the response (R87). -/
def execGetBuffer (present : Bool) (len : Nat) (s : State) : Result :=
  if bufferArgOk present len then
    if s.dir.clk = .output then
      if s.dir.dat = .input then
        andNext (repeatStep len getElement { s with idx := 0 }) fun s => complete (releaseBufferRegs s)
      else .fault (.notIdle .getBuffer s.trace)
    else .fault (.notEnabled .getBuffer s.trace)
  else raiseInvalidArgument .getBuffer s

end Sys2Proof.Machine
end

