-- ==== Sys2Proof/Machine/Dispatch.lean ====
section
/-!
DEFINITION. The meaning of each instruction, one arm per constructor.
-/

namespace Sys2Proof.Machine

def exec (i : Instr) (s : State) : Host.Outcome State Fault Refusal :=
  match i with
  | .init => Sys2Proof.Machine.execInit s
  | .disable => Sys2Proof.Machine.execDisable s
  | .suspend => Sys2Proof.Machine.execSuspend s
  | .resume => Sys2Proof.Machine.execResume s
  | .dataReady => Sys2Proof.Machine.execDataReady s
  | .fieldPresent => Sys2Proof.Machine.execFieldPresent s
  | .setWakeOnField e => Sys2Proof.Machine.execSetWakeOnField e s
  | .setWakeOnDataReady e => Sys2Proof.Machine.execSetWakeOnDataReady e s
  | .beginSend => Sys2Proof.Machine.execBeginSend s
  | .endSend => Sys2Proof.Machine.execEndSend s
  | .sendByte v => Sys2Proof.Machine.execSendByte v s
  | .sendBuffer p n => Sys2Proof.Machine.execSendBuffer p n s
  | .getByte => Sys2Proof.Machine.execGetByte s
  | .getBuffer p n => Sys2Proof.Machine.execGetBuffer p n s

end Sys2Proof.Machine
end

