-- ==== Sys2Proof/Machine/Cut.lean ====
section
/-!
DEFINITION. A reset in the middle of an operation (70_reset_and_hazards.md R211): "an operation cut by reset is
abandoned and reports nothing". The block comes out as R40 says; what the operation did before outlasts it only outside the
block, in the receive buffer and in the levels and changes of the environment that have gone by.
-/

namespace Sys2Proof.Machine

/-- The micro-operations of an operation issued in this state, as the events they append: all of them, or those before the
violation it ends in (R37). -/
def microOps (i : Instr) (s : State) : List Stamped := ownEvents ((traceOf (exec i s)).drop s.trace.length)

/-- The receive buffer when `n` micro-operations of an operation are done: a `getBuffer` stores an element after each
forty of them (R156, R162), no other operation stores any (R50). -/
def rxAfter (i : Instr) (n : Nat) (s : State) : Memory :=
  if i.op = .getBuffer then
    match exec (.getBuffer true (n / (5 * Config.byteBits))) s with
    | .next t => t.rx
    | .fault _ => s.rx
    | .refused _ => s.rx
  else s.rx

/-- An operation during which the reset strikes when `n` of its micro-operations are done (R211). One that has no more
than these ends first, be it in a violation, and the reset finds what it left. -/
def execCut (i : Instr) (n : Nat) (s : State) : Result :=
  if n ≤ (microOps i s).length then
    .next (resetBlock (afterDraws (sampleCount ((microOps i s).take n)) { s with
      rx := rxAfter i n s, changes := s.changes.drop n }))
  else andNext (exec i s) fun t => .next (resetBlock t)

end Sys2Proof.Machine
end

