-- ==== Sys2Proof/Machine/Step.lean ====
section
/-!
DEFINITION. One step: the next move of the world outside. A command is decoded and runs from start to
completion (00_scope.md R5; 30_encoding.md R88, R91); a word that selects no operation is answered with
`IllegalCommand` (R85); a command may be cut short by a reset (70_reset_and_hazards.md R211); any other move has its own effect; with no move the block is at rest (D22).
-/

namespace Sys2Proof.Machine

/-- One step of the machine. -/
def step (s : State) : Host.Outcome State Fault Refusal :=
  match takeCommand s with
  | some (w, t) =>
    match decode w with
    | .ok i => exec i t
    | .error _ => raiseIllegalCommand w t
  | none =>
    match takeCut s with
    | some (w, n, t) =>
      match decode w with
      | .ok i => execCut i n t
      | .error _ => .next (resetBlock t)
    | none => .next (outsideMove s)

/-- The state with the table word `w` as the command the next step takes (log 8). -/
def State.withFetchWord (s : State) (nbits w : Nat) : State := placeCommand (tableWord nbits w) s

end Sys2Proof.Machine
end

