-- ==== Sys2Proof/Safety.lean ====
section
/-!
DEFINITION. The terms claims are stated in: what a run of events looks like on `TRACE`, with the wake events of an
environment that moves in between (10_state.md R37; 42_power_session.md R137); the event lists and the durations of the
operations (43_transfer.md R153, R155, R162); the levels the environment shows (10_state.md R23); which use of an
operation is a contract violation (60_exceptions.md R183); the invariants of the machine (10_state.md R36, R37, R41).
-/

namespace Sys2Proof.Machine

/-! ### Events -/

/-- The events the watcher appends at time `t` for these level changes: one for each armed source (R137). -/
def wakesDue (t : Nat) (w : WakeFlags) (due : List WakeSource) : List Stamped :=
  (due.filter fun src => armed src w).map fun src => ⟨t, .wake src⟩

/-- `NOW` just before the micro-operation that appends this event: a delay carries the time after it (R103). -/
def startTime (e : Stamped) : Nat :=
  match e.event with
  | .delay n => e.time - n
  | _ => e.time

/-- The block's own events, one for each micro-operation, with the wake events that the environment's changes bring about
before each of them (R5, R137). -/
def weave (w : WakeFlags) (changes : List (List WakeSource)) : List Stamped → List Stamped
  | [] => []
  | e :: rest => wakesDue (startTime e) w (changes.headD []) ++ e :: weave w changes.tail rest

/-- The state after the block's own events `evs`, one for each micro-operation: they stand on `TRACE`, and the
environment has had its turn before each. -/
def withEvents (evs : List Stamped) (s : State) : State :=
  { s with trace := s.trace ++ weave s.wk s.changes evs, changes := s.changes.drop evs.length }

/-- The events of `init` at time `t` (R120). -/
def initEvents (t : Nat) : List Stamped :=
  [⟨t, .dir .sel .output⟩, ⟨t, .dir .clk .output⟩, ⟨t, .dir .dat .input⟩,
   ⟨t, .dir .pwr .output⟩, ⟨t, .dir .irq .input⟩, ⟨t, .dir .fd .input⟩]

/-- The events of `disable` at time `t` (R121). -/
def disableEvents (t : Nat) : List Stamped :=
  [⟨t, .dir .sel .input⟩, ⟨t, .dir .clk .input⟩, ⟨t, .dir .pwr .input⟩]

/-- The events of `beginSend` from time `t` (R151). -/
def beginSendEvents (t : Nat) : List Stamped :=
  [⟨t, .drive .sel false⟩, ⟨t + 1, .delay 1⟩, ⟨t + 1, .dir .dat .output⟩]

/-- The events of `endSend` from time `t` (R152). -/
def endSendEvents (t : Nat) : List Stamped :=
  [⟨t + 1, .delay 1⟩, ⟨t + 1, .dir .dat .input⟩, ⟨t + 2, .delay 1⟩, ⟨t + 2, .drive .sel true⟩]

/-- The five events of one bit sent, from time `t` (R153). -/
def bitOutEvents (t : Nat) (b : Level) : List Stamped :=
  [⟨t, .drive .clk false⟩, ⟨t, .drive .dat b⟩, ⟨t + 1, .delay 1⟩, ⟨t + 1, .drive .clk true⟩, ⟨t + 2, .delay 1⟩]

/-- The forty events of a byte sent, from time `t`: bit 7 first, two microseconds a bit (R153). -/
def sendByteEvents (t : Nat) (v : Byte) : List Stamped :=
  (List.range 8).flatMap fun j => bitOutEvents (t + 2 * j) (v.getLsbD (7 - j))

/-- The five events of one bit received as `b`, from time `t` (R155). -/
def bitInEvents (t : Nat) (b : Level) : List Stamped :=
  [⟨t, .drive .clk false⟩, ⟨t + 1, .delay 1⟩, ⟨t + 1, .sample .dat b⟩, ⟨t + 1, .drive .clk true⟩, ⟨t + 2, .delay 1⟩]

/-- The forty events of a byte received, from time `t`, `bits j` being the sample of step `j` (R155). -/
def getByteEvents (t : Nat) (bits : Nat → Level) : List Stamped :=
  (List.range 8).flatMap fun j => bitInEvents (t + 2 * j) (bits j)

/-- The events of a buffer sent: those of its bytes, nothing in between (R154). -/
def sendBufferEvents (t : Nat) : List Byte → List Stamped
  | [] => []
  | v :: rest => sendByteEvents t v ++ sendBufferEvents (t + 16) rest

/-- The events of `n` bytes received, `bits` being the samples in time order (R156). -/
def getBufferEvents (t : Nat) (bits : Nat → Level) : Nat → List Stamped
  | 0 => []
  | n + 1 => getByteEvents t bits ++ getBufferEvents (t + 16) (fun j => bits (8 + j)) n

/-- The levels written to `DAT` by a list of events, in time order. -/
def datWrites (evs : List Stamped) : List Level :=
  evs.filterMap fun e =>
    match e.event with
    | .drive .dat v => some v
    | _ => none

/-- The levels written to `CLK` by a list of events, in time order. -/
def clkWrites (evs : List Stamped) : List Level :=
  evs.filterMap fun e =>
    match e.event with
    | .drive .clk v => some v
    | _ => none

/-- What a receiver that reads `DAT` at each write of `CLK` to 1 sees, `d` being the level on `DAT` before (R159 (b)). -/
def risingSamples (d : Level) : List Stamped → List Level
  | [] => []
  | e :: rest =>
    match e.event with
    | .drive .dat v => risingSamples v rest
    | .drive .clk true => d :: risingSamples d rest
    | _ => risingSamples d rest

/-- The sum of the delays in a list of events (R36). -/
def delaySum (evs : List Stamped) : Nat :=
  (evs.map fun e =>
    match e.event with
    | .delay n => n
    | _ => 0).sum

/-! ### The environment's levels -/

/-- The level the environment shows at the `k`-th sample of an input line, given the draws in hand and the number of
the next free level: the `k`-th of the draws, or the free level that then comes due (R23, D11). -/
def levelFrom (draws : List Level) (drawn k : Nat) : Level :=
  match draws[k]? with
  | some v => v
  | none => Config.extLevel (drawn + (k - draws.length))

/-- The level the environment shows at the `k`-th sample of an input line from now. -/
def levelAt (s : State) (k : Nat) : Level := levelFrom s.draws s.drawn k

/-- The byte of eight samples, the first in bit 7 (R157: `128 b7 + 64 b6 + ... + b0`). -/
def byteOf (bits : Nat → Level) : Byte :=
  BitVec.ofNat 8 (128 * (bits 0).toNat + 64 * (bits 1).toNat + 32 * (bits 2).toNat + 16 * (bits 3).toNat
    + 8 * (bits 4).toNat + 4 * (bits 5).toNat + 2 * (bits 6).toNat + (bits 7).toNat)

/-! ### Operations issued one after the other -/

/-- `sendByte` of each byte, in order. -/
def sendAll : List Byte → State → Result
  | [], s => .next s
  | v :: rest, s => andNext (exec (.sendByte v) s) (sendAll rest)

/-- `getByte`, `n` times. -/
def getAll : Nat → State → Result
  | 0, s => .next s
  | n + 1, s => andNext (exec .getByte s) (getAll n)

/-- The last response of a state has status `Ok`. -/
def answeredOk (s : State) : Bool := s.responses.getLast?.map Response.status = some .ok

/-- The operation is one of the four that shift bytes. -/
def shifts : Instr → Bool
  | .sendByte _ => true
  | .sendBuffer _ _ => true
  | .getByte => true
  | .getBuffer _ _ => true
  | .init => false
  | .disable => false
  | .suspend => false
  | .resume => false
  | .dataReady => false
  | .fieldPresent => false
  | .setWakeOnField _ => false
  | .setWakeOnDataReady _ => false
  | .beginSend => false
  | .endSend => false

/-- The operation is one of the two that arm or disarm a wake source. -/
def setsWake : Instr → Bool
  | .setWakeOnField _ => true
  | .setWakeOnDataReady _ => true
  | .init => false
  | .disable => false
  | .suspend => false
  | .resume => false
  | .dataReady => false
  | .fieldPresent => false
  | .beginSend => false
  | .endSend => false
  | .sendByte _ => false
  | .sendBuffer _ _ => false
  | .getByte => false
  | .getBuffer _ _ => false

/-- The next move of the outside is a reset, between operations or inside one. -/
def nextResets (s : State) : Bool :=
  match s.inputs with
  | .reset :: _ => true
  | .cut _ _ :: _ => true
  | .command _ :: _ => false
  | .buffers _ _ :: _ => false
  | .pinChange _ :: _ => false
  | [] => false

/-- An outcome with the wake flags of its next state replaced. -/
def withWake (w : WakeFlags) (r : Result) : Result :=
  match r with
  | .next t => .next { t with wk := w }
  | .fault f => .fault f
  | .refused x => .refused x

/-! ### Durations, event counts and violations -/

/-- The virtual time of an operation that completes with status `Ok` (R162). -/
def durationOf : Instr → Nat
  | .resume => 50
  | .beginSend => 1
  | .endSend => 2
  | .sendByte _ => 16
  | .getByte => 16
  | .sendBuffer _ len => 16 * len
  | .getBuffer _ len => 16 * len
  | .init => 0
  | .disable => 0
  | .suspend => 0
  | .dataReady => 0
  | .fieldPresent => 0
  | .setWakeOnField _ => 0
  | .setWakeOnDataReady _ => 0

/-- The number of events of an operation that completes with status `Ok` (R162). -/
def eventCountOf : Instr → Nat
  | .init => 6
  | .disable => 3
  | .suspend => 1
  | .resume => 2
  | .dataReady => 1
  | .fieldPresent => 1
  | .setWakeOnField _ => 0
  | .setWakeOnDataReady _ => 0
  | .beginSend => 3
  | .endSend => 4
  | .sendByte _ => 40
  | .getByte => 40
  | .sendBuffer _ len => 40 * len
  | .getBuffer _ len => 40 * len

/-- The operation, issued in this state, is a contract violation (the table of R183, after the argument check of R181). -/
def Violates (i : Instr) (s : State) : Prop :=
  match i with
  | .init => s.dir.dat = .output
  | .disable => s.dir.dat = .output
  | .suspend => s.dir.sel = .input
  | .resume => s.dir.sel = .input
  | .dataReady => False
  | .fieldPresent => False
  | .setWakeOnField _ => False
  | .setWakeOnDataReady _ => False
  | .beginSend => s.dir.sel = .input ∨ s.dir.dat = .output
  | .endSend => s.dir.dat = .input
  | .sendByte _ => s.dir.dat = .input
  | .sendBuffer p len =>
    p = true ∧ len ≠ 0 ∧ (s.dir.dat = .input ∨ ∃ k, k < len ∧ memRead s.tx k = none)
  | .getByte => s.dir.sel = .input ∨ s.dir.dat = .output
  | .getBuffer p len => p = true ∧ len ≠ 0 ∧ (s.dir.sel = .input ∨ s.dir.dat = .output)

/-! ### Invariants -/

/-- How many of the two mask bits are 1, as a count of 2 bits (R41 (e)). -/
def maskCount (w : WakeFlags) : BitVec 2 := BitVec.ofNat 2 (w.dr.toNat + w.fd.toNat)

/-- What R41 says of every reachable state, (a) to (d) and the first half of (e), with the canonical form of the two
buffers. -/
structure StateInv (s : State) : Prop where
  /-- (a) `IRQ` is an input. -/
  irqIn : s.dir.irq = .input
  /-- (a) `FD` is an input. -/
  fdIn : s.dir.fd = .input
  /-- (b) `SEL` and `CLK` have one direction. -/
  selClk : s.dir.sel = s.dir.clk
  /-- (b) `CLK` and `PWR` have one direction. -/
  clkPwr : s.dir.clk = s.dir.pwr
  /-- (c) Sending implies Enabled. -/
  sendingEnabled : s.dir.dat = .output → s.dir.sel = .output
  /-- (d) Sending implies that `SEL` is driven low. -/
  sendingSelLow : s.dir.dat = .output → s.lat.sel = false
  /-- (e) In the variant the count is the number of mask bits that are 1. -/
  count : ∀ c, s.wk.cnt = some c → c = maskCount s.wk
  /-- The transmit buffer is in canonical form. -/
  txWf : Memory.wf s.tx = true
  /-- The receive buffer is in canonical form. -/
  rxWf : Memory.wf s.rx = true

/-- Virtual time is the sum of the delays on `TRACE` (R36), and `TRACE` is in the order of time (R37, R63). -/
structure TimeInv (s : State) : Prop where
  /-- `NOW` is the sum of the arguments of every `Delay`. -/
  sum : s.now = delaySum s.trace
  /-- No event is stamped earlier than one before it. -/
  ordered : s.trace.Pairwise fun a b => a.time ≤ b.time
  /-- No event is stamped later than `NOW`. -/
  past : ∀ e ∈ s.trace, e.time ≤ s.now

end Sys2Proof.Machine
end

