-- ==== Sys2Proof/Certificates/Slice0/Obligations.lean ====
section
/-!
DEFINITION. The statements for the provers, each from a numbered rule of the spec. The vocabulary is Safety.lean's:
`withEvents evs s` is `s` with the block's own events `evs` on `TRACE`, the wake events of a moving environment
before each; `levelAt s k` is the level the environment shows at the `k`-th sample of an input line;
`afterDraws k s` is `s` with `k` of those levels used up. A next state written as a record update of `s` says what changes
and that nothing else does. A statement that leaves `sr`, `bitcnt`, `idx` or `fresh` of the next state open
does so because they hold free values there (log 4), and holds for every value of them.
-/

open Sys2Proof Sys2Proof.Machine

/-! ### Encoding -/

/-- The encoding of 30_encoding.md (R81 to R84), which is the spec's own choice (decision D12): the decoder gives back
every instruction a command word can carry. -/
def Obligations.DecodeOfEncode : Prop :=
  ∀ i : Instr, WellFormed i → decode (encode i) = .ok i

/-- The encoding of 30_encoding.md (R84, R88; decision D12), the other way round: a word that decodes is the word of the
instruction it decodes to, and that instruction is well formed. -/
def Obligations.EncodeOfDecode : Prop :=
  ∀ (w : CmdWord) (i : Instr), decode w = .ok i → encode i = w ∧ WellFormed i

/-- R84 (decision D12): "A word selects an operation when `word and mask = match`"; the masks and matches are those of the
printed map, one row for each operation, no word selects two rows, and the words are those of the column Word. -/
def Obligations.MaskAndMatchSelect : Prop :=
  (∀ (w : CmdWord), ∀ row ∈ opcodeMap,
    w &&& row.mask = row.value ↔ ∃ i, decode w = .ok i ∧ i.op = row.op) ∧
  (∀ op : Op, ∃ row ∈ opcodeMap, row.op = op) ∧
  (∀ (w : CmdWord), ∀ r ∈ opcodeMap, ∀ q ∈ opcodeMap,
    w &&& r.mask = r.value → w &&& q.mask = q.value → r = q) ∧
  [encode .init, encode .disable, encode .suspend, encode .resume, encode .dataReady, encode .fieldPresent,
    encode .beginSend, encode .endSend, encode .getByte] =
    [0x0000#16, 0x1000#16, 0x2000#16, 0x3000#16, 0x4000#16, 0x5000#16, 0x8000#16, 0x9000#16, 0xC000#16] ∧
  (∀ e : Bool, (encode (.setWakeOnField e)).toNat = 0x6000 + e.toNat ∧
    (encode (.setWakeOnDataReady e)).toNat = 0x7000 + e.toNat) ∧
  (∀ v : Byte, (encode (.sendByte v)).toNat = 0xA000 + v.toNat) ∧
  (∀ (p : Bool) (n : Nat), n < 2048 → (encode (.sendBuffer p n)).toNat = 0xB000 + 0x800 * p.toNat + n ∧
    (encode (.getBuffer p n)).toNat = 0xD000 + 0x800 * p.toNat + n)

/-- R85 (decision D27): which words are illegal, and that an illegal word changes nothing but the response port, where
status 2 is answered. -/
def Obligations.IllegalWords : Prop :=
  (∀ w : CmdWord, decode w = .error (.illegalCommand w) ↔
    (w.extractLsb' 12 4 = 0xE#4 ∨ w.extractLsb' 12 4 = 0xF#4) ∨
    (w.extractLsb' 12 4 ∈ [0x0#4, 0x1#4, 0x2#4, 0x3#4, 0x4#4, 0x5#4, 0x8#4, 0x9#4, 0xC#4] ∧
      w.extractLsb' 0 12 ≠ 0#12) ∨
    (w.extractLsb' 12 4 ∈ [0x6#4, 0x7#4] ∧ w.extractLsb' 1 11 ≠ 0#11) ∨
    (w.extractLsb' 12 4 = 0xA#4 ∧ w.extractLsb' 8 4 ≠ 0#4)) ∧
  (∀ (s : State) (w : CmdWord) (rest : List Input), s.inputs = .command w :: rest → (∀ i, decode w ≠ .ok i) →
    step s = .next { s with inputs := rest, responses := s.responses ++ [⟨.illegalCommand w, 0x00#8⟩] }) ∧
  ∀ w : CmdWord, statusCode (.illegalCommand w) = 2#2

/-- The decoding table of 95_test_vectors.md 2.7: one word of each format and some illegal ones. -/
def Obligations.SampleWordsDecode : Prop :=
  decode 0x0000#16 = .ok .init ∧ decode 0x3000#16 = .ok .resume ∧ decode 0x6001#16 = .ok (.setWakeOnField true) ∧
  decode 0x7000#16 = .ok (.setWakeOnDataReady false) ∧ decode 0xA0A5#16 = .ok (.sendByte 0xA5#8) ∧
  decode 0xB801#16 = .ok (.sendBuffer true 1) ∧ decode 0xBFFF#16 = .ok (.sendBuffer true 2047) ∧
  decode 0xC000#16 = .ok .getByte ∧ decode 0xD001#16 = .ok (.getBuffer false 1) ∧
  decode 0xC001#16 = .error (.illegalCommand 0xC001#16) ∧ decode 0xA1A5#16 = .error (.illegalCommand 0xA1A5#16)

/-! ### The step -/

/-- R88, R91: when the next move of the outside is a command whose word decodes, the step is that instruction,
run from start to completion in the state the command is taken from. (A command that a reset cuts is the obligation
`ResetCutsAnOperationShort`.) That a step is one operation and that the commands stand in
`inputs` is the model's choice (logs 8, 9). -/
def Obligations.StepRunsTheCommand : Prop :=
  ∀ (s : State) (w : CmdWord) (rest : List Input) (i : Instr), s.inputs = .command w :: rest → decode w = .ok i →
    step s = exec i { s with inputs := rest }

/-- R91 by decision D22: with no move of the outside the block changes nothing; a host that puts other buffers in place changes
those alone, and each then holds the bytes supplied, element 0 first (R52). That the buffers are replaced by such a move is
the model's choice (log 13). -/
def Obligations.OutsideMovesBetweenCommands : Prop :=
  (∀ s : State, s.inputs = [] → step s = .next s) ∧
  (∀ (s : State) (a b : List Byte) (rest : List Input), s.inputs = .buffers a b :: rest →
    ∃ t, step s = .next t ∧ t = { s with inputs := rest, tx := t.tx, rx := t.rx } ∧
      (∀ k, memRead t.tx k = a[k]?) ∧ (∀ k, memRead t.rx k = b[k]?))

/-- R137, by decision D16: a change of level of the line of an armed wake source appends its event and changes nothing
else; one of a source that is not armed does nothing. -/
def Obligations.WatcherFiresWhenArmed : Prop :=
  ∀ (s : State) (src : WakeSource) (rest : List Input), s.inputs = .pinChange src :: rest →
    (armed src s.wk = true → step s = .next { s with inputs := rest, trace := s.trace ++ [⟨s.now, .wake src⟩] }) ∧
    (armed src s.wk = false → step s = .next { s with inputs := rest })

/-- R137, R33: whatever changes land inside an operation, only armed sources fire, and all events are appended. The flags are
those before the operation; the two wake operations have no micro-operation in which a change could land. -/
def Obligations.OnlyArmedSourcesFire : Prop :=
  ∀ (i : Instr) (s t : State), exec i s = .next t →
    ∃ new, t.trace = s.trace ++ new ∧ ∀ e ∈ new, ∀ src, e.event = .wake src → armed src s.wk = true

/-! ### Lifecycle -/

/-- R120: `init` writes all six directions and no level; while Sending it is a violation. That it writes all six is decision
D6, that it is a violation while Sending D7, that it leaves the wake flags alone D29. D6 asks that no claim rest on the
order of the six events, so the statement leaves it open. -/
def Obligations.InitTakesTheBus : Prop :=
  (∀ s : State, s.dir.dat = .input → ∃ evs, evs.Perm (initEvents s.now) ∧
    exec .init s = .next { withEvents evs s with
      dir := ⟨.output, .output, .input, .output, .input, .input⟩
      responses := s.responses ++ [⟨.ok, 0x00#8⟩] }) ∧
  (∀ s : State, s.dir.dat = .output → exec .init s = .fault (.notIdle .init s.trace)) ∧
  encode .init = 0x0000#16

/-- R121: `disable` makes `SEL`, `CLK` and `PWR` inputs and touches nothing else (the wake flags by decision D29); while
Sending it is a violation (D7). The order of the three events is left open, as D6 asks. -/
def Obligations.DisableGivesUpTheBus : Prop :=
  (∀ s : State, s.dir.dat = .input → ∃ evs, evs.Perm (disableEvents s.now) ∧
    exec .disable s = .next { withEvents evs s with
      dir := { s.dir with sel := .input, clk := .input, pwr := .input }
      responses := s.responses ++ [⟨.ok, 0x00#8⟩] }) ∧
  (∀ s : State, s.dir.dat = .output → exec .disable s = .fault (.notIdle .disable s.trace)) ∧
  encode .disable = 0x1000#16

/-- R228, R224 (the spec's own inferences from R100 and R121): the levels set before a `disable` are driven again at the next `init`. -/
def Obligations.LevelsOutliveDisable : Prop :=
  ∀ s : State, s.dir.dat = .input → ∃ t u, exec .disable s = .next t ∧ exec .init t = .next u ∧
    disabled t = true ∧ enabled u = true ∧ u.lat = s.lat ∧
    ∀ ext : Lines Level, pad t ext .pwr = ext.pwr ∧
      pad u ext .sel = s.lat.sel ∧ pad u ext .clk = s.lat.clk ∧ pad u ext .pwr = s.lat.pwr

/-! ### Power and queries -/

/-- R130: `suspend` drives `PWR` low, in Idle and in Sending (decision D30), with no delay; with `PWR` an input it is a
violation (D8). -/
def Obligations.SuspendDrivesPowerLow : Prop :=
  (∀ s : State, s.dir.pwr = .output → exec .suspend s = .next { withEvents [⟨s.now, .drive .pwr false⟩] s with
    lat := { s.lat with pwr := false }
    responses := s.responses ++ [⟨.ok, 0x00#8⟩] }) ∧
  (∀ s : State, s.dir.pwr = .input → exec .suspend s = .fault (.notEnabled .suspend s.trace)) ∧
  encode .suspend = 0x2000#16

/-- R131: `resume` drives `PWR` high and returns 50 microseconds of virtual time later, in Idle and in Sending
(decision D30); with `PWR` an input it is a violation (D8). -/
def Obligations.ResumeDrivesPowerHighAndWaits : Prop :=
  (∀ s : State, s.dir.pwr = .output → exec .resume s =
    .next { withEvents [⟨s.now, .drive .pwr true⟩, ⟨s.now + 50, .delay 50⟩] s with
      lat := { s.lat with pwr := true }, now := s.now + 50
      responses := s.responses ++ [⟨.ok, 0x00#8⟩] }) ∧
  (∀ s : State, s.dir.pwr = .input → exec .resume s = .fault (.notEnabled .resume s.trace)) ∧
  encode .resume = 0x3000#16

/-- R132: `dataReady` answers true exactly when `IRQ` reads high, and changes no state of the block. -/
def Obligations.DataReadyReadsTheLine : Prop :=
  (∀ s : State, s.dir.irq = .input → exec .dataReady s =
    .next { withEvents [⟨s.now, .sample .irq (levelAt s 0)⟩] (afterDraws 1 s) with
      responses := s.responses ++ [⟨.ok, if levelAt s 0 = true then 0x01#8 else 0x00#8⟩] }) ∧
  encode .dataReady = 0x4000#16

/-- R133: `fieldPresent` answers true exactly when `FD` reads low, and changes no state of the block. -/
def Obligations.FieldPresentReadsActiveLow : Prop :=
  (∀ s : State, s.dir.fd = .input → exec .fieldPresent s =
    .next { withEvents [⟨s.now, .sample .fd (levelAt s 0)⟩] (afterDraws 1 s) with
      responses := s.responses ++ [⟨.ok, if levelAt s 0 = false then 0x01#8 else 0x00#8⟩] }) ∧
  encode .fieldPresent = 0x5000#16

/-! ### Wake arming -/

/-- R134: `setWakeOnField` in the default block: enabling sets the mask bit and the shared flag, disabling
clears the mask bit alone; no event, no time, in every state (decisions D17, D29). -/
def Obligations.SetWakeOnFieldDefault : Prop :=
  (∀ s : State, s.wk.cnt = none →
    exec (.setWakeOnField true) s = .next { s with
      wk := { s.wk with fd := true, gie := true }, responses := s.responses ++ [⟨.ok, 0x00#8⟩] } ∧
    exec (.setWakeOnField false) s = .next { s with
      wk := { s.wk with fd := false }, responses := s.responses ++ [⟨.ok, 0x00#8⟩] }) ∧
  encode (.setWakeOnField true) = 0x6001#16 ∧ encode (.setWakeOnField false) = 0x6000#16

/-- R135: `setWakeOnDataReady` in the default block. -/
def Obligations.SetWakeOnDataReadyDefault : Prop :=
  (∀ s : State, s.wk.cnt = none →
    exec (.setWakeOnDataReady true) s = .next { s with
      wk := { s.wk with dr := true, gie := true }, responses := s.responses ++ [⟨.ok, 0x00#8⟩] } ∧
    exec (.setWakeOnDataReady false) s = .next { s with
      wk := { s.wk with dr := false }, responses := s.responses ++ [⟨.ok, 0x00#8⟩] }) ∧
  encode (.setWakeOnDataReady true) = 0x7001#16 ∧ encode (.setWakeOnDataReady false) = 0x7000#16

/-- R136: both wake operations in the reference-counted variant: only a change of the mask bit counts (decision D17), and
the shared flag is cleared when the count comes down to zero. -/
def Obligations.CountedWakeOperations : Prop :=
  ∀ (s : State) (c : BitVec 2), s.wk.cnt = some c →
    (s.wk.fd = false → exec (.setWakeOnField true) s = .next { s with
      wk := { s.wk with fd := true, cnt := some (c + 1), gie := true }
      responses := s.responses ++ [⟨.ok, 0x00#8⟩] }) ∧
    (s.wk.fd = true → exec (.setWakeOnField true) s = .next { s with
      responses := s.responses ++ [⟨.ok, 0x00#8⟩] }) ∧
    (s.wk.fd = true → exec (.setWakeOnField false) s = .next { s with
      wk := { s.wk with fd := false, cnt := some (c - 1), gie := if c = 1#2 then false else s.wk.gie }
      responses := s.responses ++ [⟨.ok, 0x00#8⟩] }) ∧
    (s.wk.fd = false → exec (.setWakeOnField false) s = .next { s with
      responses := s.responses ++ [⟨.ok, 0x00#8⟩] }) ∧
    (s.wk.dr = false → exec (.setWakeOnDataReady true) s = .next { s with
      wk := { s.wk with dr := true, cnt := some (c + 1), gie := true }
      responses := s.responses ++ [⟨.ok, 0x00#8⟩] }) ∧
    (s.wk.dr = true → exec (.setWakeOnDataReady true) s = .next { s with
      responses := s.responses ++ [⟨.ok, 0x00#8⟩] }) ∧
    (s.wk.dr = true → exec (.setWakeOnDataReady false) s = .next { s with
      wk := { s.wk with dr := false, cnt := some (c - 1), gie := if c = 1#2 then false else s.wk.gie }
      responses := s.responses ++ [⟨.ok, 0x00#8⟩] }) ∧
    (s.wk.dr = false → exec (.setWakeOnDataReady false) s = .next { s with
      responses := s.responses ++ [⟨.ok, 0x00#8⟩] })

/-- R41 (f) (the spec's own inference), R191: in the default block no step but a reset clears the shared enable, and no step makes the block
into the variant. -/
def Obligations.SharedEnableStaysSet : Prop :=
  ∀ s t : State, s.wk.cnt = none → step s = .next t →
    t.wk.cnt = none ∧ (s.wk.gie = true → nextResets s = false → t.wk.gie = true)

/-- R41 (e), the spec's own inference from R136, of which the count is decision D17 ("a claim about it rests on this row"): in
the variant, where the count is the number of mask bits and the shared flag is set whenever it is not zero, both stay so at
every step but a reset. -/
def Obligations.CountedEnableFollowsCount : Prop :=
  ∀ s t : State, ∀ c, s.wk.cnt = some c → c = maskCount s.wk → (c ≠ 0#2 → s.wk.gie = true) →
    nextResets s = false → step s = .next t →
    ∃ d, t.wk.cnt = some d ∧ d = maskCount t.wk ∧ (d ≠ 0#2 → t.wk.gie = true)

/-- R31: no operation reads the wake flags to decide its own behaviour: but for the two that write them, an operation run with
other flags does the same and leaves those other flags (where no change of level lands inside it, for the watcher does
read them). -/
def Obligations.WakeFlagsDoNotSteer : Prop :=
  ∀ (i : Instr) (s : State) (w : WakeFlags), setsWake i = false → s.changes = [] →
    exec i { s with wk := w } = withWake w (exec i s)

/-! ### The Transfer Engine -/

/-- R151: `beginSend` lowers `SEL`, waits and only then makes `DAT` an output; the data latch stays as it was. With `SEL` an
input it is a violation by decision D8, tested first (D14), while Sending by D7. -/
def Obligations.BeginSendTurnsTheBus : Prop :=
  (∀ s : State, s.dir.sel = .output → s.dir.dat = .input →
    exec .beginSend s = .next { withEvents (beginSendEvents s.now) s with
      lat := { s.lat with sel := false }, dir := { s.dir with dat := .output }, now := s.now + 1
      responses := s.responses ++ [⟨.ok, 0x00#8⟩] }) ∧
  (∀ s : State, s.dir.sel = .input → exec .beginSend s = .fault (.notEnabled .beginSend s.trace)) ∧
  (∀ s : State, s.dir.sel = .output → s.dir.dat = .output →
    exec .beginSend s = .fault (.notIdle .beginSend s.trace)) ∧
  encode .beginSend = 0x8000#16

/-- R152: `endSend` releases `DAT` between its two delays and then raises `SEL`. With `DAT` an input it is the violation
`NotSending`; that this is its kind while Disabled too, where R121 says `NotEnabled`, is the model's choice (log 20). -/
def Obligations.EndSendReleasesTheBus : Prop :=
  (∀ s : State, s.dir.dat = .output → s.dir.sel = .output →
    exec .endSend s = .next { withEvents (endSendEvents s.now) s with
      lat := { s.lat with sel := true }, dir := { s.dir with dat := .input }, now := s.now + 2
      responses := s.responses ++ [⟨.ok, 0x00#8⟩] }) ∧
  (∀ s : State, s.dir.dat = .input → exec .endSend s = .fault (.notSending .endSend s.trace)) ∧
  encode .endSend = 0x9000#16

/-- R214 (the spec's own inference from R151 and R152): the empty pair brings `SEL` to its idle level in 3 microseconds and changes no other level or
direction. -/
def Obligations.EmptyPairSetsSelect : Prop :=
  ∀ s : State, s.dir.sel = .output → s.dir.dat = .input →
    ∃ t u, exec .beginSend s = .next t ∧ exec .endSend t = .next u ∧ u.dir = s.dir ∧
      u.lat = { s.lat with sel := true } ∧ u.now = s.now + 3 ∧
      ∃ new, u.trace = s.trace ++ new ∧ (ownEvents new).length = 7

/-- R153: `sendByte` shifts the byte out, bit 7 first, in forty events and 16 microseconds; the clock ends high and bit 0
stays on the data latch. With `DAT` an input it is a violation (decision D8); that its kind is `NotSending` while Disabled too,
where R121 says `NotEnabled`, is the model's choice (log 20). -/
def Obligations.SendByteShiftsOut : Prop :=
  (∀ (s : State) (v : Byte), s.dir.dat = .output → s.dir.clk = .output →
    ∃ t, exec (.sendByte v) s = .next t ∧ t = { withEvents (sendByteEvents s.now v) s with
      lat := { s.lat with clk := true, dat := v.getLsbD 0 }, now := s.now + 16
      responses := s.responses ++ [⟨.ok, 0x00#8⟩]
      sr := t.sr, bitcnt := t.bitcnt, fresh := t.fresh }) ∧
  (∀ (s : State) (v : Byte), s.dir.dat = .input →
    exec (.sendByte v) s = .fault (.notSending .sendByte s.trace)) ∧
  (∀ v : Byte, encode (.sendByte v) = 0xA000#16 + v.setWidth 16)

/-- R159 (a), (b) (the spec's own inference from R153): `CLK` is written low and high eight times in turn, and a receiver that reads `DAT` at each rising edge
reads the bits of the byte, bit 7 first. -/
def Obligations.SendByteWaveform : Prop :=
  ∀ (s : State) (v : Byte), s.dir.dat = .output → s.dir.clk = .output →
    ∃ t new, exec (.sendByte v) s = .next t ∧ t.trace = s.trace ++ new ∧
      clkWrites new = (List.replicate 8 [false, true]).flatten ∧
      risingSamples s.lat.dat new =
        [v.getLsbD 7, v.getLsbD 6, v.getLsbD 5, v.getLsbD 4, v.getLsbD 3, v.getLsbD 2, v.getLsbD 1, v.getLsbD 0]

/-- R154, R55: `sendBuffer` of a present buffer that has its `len ≥ 1` elements shifts out the first `len` of them in
order, nothing in between. -/
def Obligations.SendBufferShiftsOut : Prop :=
  ∀ (s : State) (bytes : List Byte), bytes ≠ [] → (∀ k, k < bytes.length → memRead s.tx k = bytes[k]?) →
    s.dir.dat = .output → s.dir.clk = .output →
    ∃ t, exec (.sendBuffer true bytes.length) s = .next t ∧
      t = { withEvents (sendBufferEvents s.now bytes) s with
        lat := { s.lat with clk := true, dat := (bytes.getLastD 0#8).getLsbD 0 }
        now := s.now + 16 * bytes.length
        responses := s.responses ++ [⟨.ok, 0x00#8⟩]
        sr := t.sr, bitcnt := t.bitcnt, idx := t.idx, fresh := t.fresh }

/-- R52, R154 by decision D15: a transmit buffer with fewer than `len` elements is a violation at the first missing one,
after the bytes before it have gone out. -/
def Obligations.SendBufferShortStops : Prop :=
  ∀ (s : State) (bytes : List Byte) (len : Nat), bytes.length < len →
    (∀ k, k < bytes.length → memRead s.tx k = bytes[k]?) → memRead s.tx bytes.length = none →
    s.dir.dat = .output → s.dir.clk = .output →
    exec (.sendBuffer true len) s =
      .fault (.bufferShort .sendBuffer (s.trace ++ weave s.wk s.changes (sendBufferEvents s.now bytes)))

/-- R181: an absent buffer or a zero length is answered `InvalidArgument`, which records the operation that raised it and
nothing else, and no other operation is answered so; by
decision D14 (R186, R187) in every state, before any state is looked at, and with no other effect. -/
def Obligations.BadArgumentsAreAnswered : Prop :=
  (∀ (s : State) (p : Bool) (len : Nat), p = false ∨ len = 0 →
    exec (.sendBuffer p len) s =
      .next { s with responses := s.responses ++ [⟨.invalidArgument .sendBuffer, 0x00#8⟩] } ∧
    exec (.getBuffer p len) s =
      .next { s with responses := s.responses ++ [⟨.invalidArgument .getBuffer, 0x00#8⟩] }) ∧
  (∀ (i : Instr) (s t : State), exec i s = .next t → answeredOk t = false →
    ∃ p len, (p = false ∨ len = 0) ∧ (i = .sendBuffer p len ∨ i = .getBuffer p len)) ∧
  ∀ op : Op, statusCode (.invalidArgument op) = 1#2

/-- R183, R186 by decisions D8, D9, D14: the states in which a buffer operation with good arguments is a violation; `getBuffer`
tests `NotEnabled` first. That `sendBuffer` is `NotSending` while Disabled too, where R121 and the order of R186 say `NotEnabled`,
is the model's choice (log 20). -/
def Obligations.BufferStateViolations : Prop :=
  ∀ (s : State) (len : Nat), len ≠ 0 →
    (s.dir.dat = .input → exec (.sendBuffer true len) s = .fault (.notSending .sendBuffer s.trace)) ∧
    (s.dir.clk = .input → exec (.getBuffer true len) s = .fault (.notEnabled .getBuffer s.trace)) ∧
    (s.dir.clk = .output → s.dir.dat = .output →
      exec (.getBuffer true len) s = .fault (.notIdle .getBuffer s.trace))

/-- R155: `getByte` clocks eight samples of `DAT` in, the first into bit 7, in forty events and 16 microseconds, and answers
the byte; the data latch and the direction are not touched. While Sending it is a violation (decision D9), while Disabled
too (D8), and that one is tested first (D14). -/
def Obligations.GetByteShiftsIn : Prop :=
  (∀ s : State, s.dir.clk = .output → s.dir.dat = .input →
    ∃ t, exec .getByte s = .next t ∧ t = { withEvents (getByteEvents s.now (levelAt s)) (afterDraws 8 s) with
      lat := { s.lat with clk := true }, now := s.now + 16
      responses := s.responses ++ [⟨.ok, byteOf (levelAt s)⟩]
      sr := t.sr, bitcnt := t.bitcnt, fresh := t.fresh }) ∧
  (∀ s : State, s.dir.clk = .input → exec .getByte s = .fault (.notEnabled .getByte s.trace)) ∧
  (∀ s : State, s.dir.clk = .output → s.dir.dat = .output →
    exec .getByte s = .fault (.notIdle .getByte s.trace)) ∧
  encode .getByte = 0xC000#16

/-- R156: `getBuffer` of `len ≥ 1` clocks `len` bytes in; element `k` of the receive buffer becomes the byte of the `k`-th eight
samples, and no other element changes. -/
def Obligations.GetBufferShiftsIn : Prop :=
  ∀ (s : State) (len : Nat), len ≠ 0 → s.dir.clk = .output → s.dir.dat = .input →
    ∃ t, exec (.getBuffer true len) s = .next t ∧
      t = { withEvents (getBufferEvents s.now (levelAt s) len) (afterDraws (8 * len) s) with
        lat := { s.lat with clk := true }, now := s.now + 16 * len
        responses := s.responses ++ [⟨.ok, 0x00#8⟩]
        rx := t.rx, sr := t.sr, bitcnt := t.bitcnt, idx := t.idx, fresh := t.fresh } ∧
      (∀ k, k < len → memRead t.rx k = some (byteOf fun j => levelAt s (8 * k + j))) ∧
      (∀ k, len ≤ k → memRead t.rx k = memRead s.rx k)

/-- R157 (the spec's own inference from R153 and R155): the bit sent at a step is a bit of the value, bit 7 first; each
receive step is `SR <- (2 * SR + b) mod 256`, and eight of them make the byte of the eight samples from whatever `SR` held; the
two laws are inverse. -/
def Obligations.ShiftLaws : Prop :=
  (∀ (v : Byte) (j : Nat), j < 8 → (wireBit v j).toNat = v.toNat / 2 ^ (7 - j) % 2) ∧
  (∀ (sr : Byte) (b : Level), shiftInBit sr b = BitVec.ofNat 8 (2 * sr.toNat + b.toNat)) ∧
  (∀ (sr : Byte) (b7 b6 b5 b4 b3 b2 b1 b0 : Level),
    ([b7, b6, b5, b4, b3, b2, b1, b0].foldl shiftInBit sr).toNat =
      128 * b7.toNat + 64 * b6.toNat + 32 * b5.toNat + 16 * b4.toNat + 8 * b3.toNat + 4 * b2.toNat + 2 * b1.toNat
        + b0.toNat) ∧
  (∀ v sr : Byte, ((List.range 8).map (wireBit v)).foldl shiftInBit sr = v)

/-- 95_test_vectors.md T19 (R157, the spec's own inference): a byte sent into a line that is looped back to the sampler is the byte received: when the
levels a `getByte` finds are those a `sendByte` wrote to `DAT`, in the same order, it answers the byte that was sent. -/
def Obligations.LoopBackReturnsTheByte : Prop :=
  ∀ (s r : State) (v : Byte) (rest : List Level), s.dir.dat = .output → s.dir.clk = .output →
    r.dir.clk = .output → r.dir.dat = .input →
    ∃ t new, exec (.sendByte v) s = .next t ∧ t.trace = s.trace ++ new ∧
      (r.draws = datWrites new ++ rest →
        ∃ u, exec .getByte r = .next u ∧ u.responses = r.responses ++ [⟨.ok, v⟩] ∧ u.draws = rest)

/-- R90: `sendBuffer` has exactly the effect of `sendByte` of each element in order, but that it is one command with one
response. -/
def Obligations.SendBufferIsRepeatedSendByte : Prop :=
  ∀ (s : State) (bytes : List Byte), bytes ≠ [] → (∀ k, k < bytes.length → memRead s.tx k = bytes[k]?) →
    s.dir.dat = .output → s.dir.clk = .output →
    ∃ t u, exec (.sendBuffer true bytes.length) s = .next t ∧ sendAll bytes s = .next u ∧
      t = { u with responses := s.responses ++ [⟨.ok, 0x00#8⟩]
                   sr := t.sr, bitcnt := t.bitcnt, idx := t.idx, fresh := t.fresh }

/-- R90: `getBuffer` has exactly the effect of `len` successive `getByte`s whose results are stored in call order. -/
def Obligations.GetBufferIsRepeatedGetByte : Prop :=
  ∀ (s : State) (len : Nat), len ≠ 0 → s.dir.clk = .output → s.dir.dat = .input →
    ∃ t u, exec (.getBuffer true len) s = .next t ∧ getAll len s = .next u ∧
      t = { u with responses := s.responses ++ [⟨.ok, 0x00#8⟩], rx := t.rx
                   sr := t.sr, bitcnt := t.bitcnt, idx := t.idx, fresh := t.fresh } ∧
      ∀ k, k < len → memRead t.rx k = (u.responses[s.responses.length + k]?).map Response.val

/-- R161 (the spec's own inference from R153 and R155): after a byte or buffer operation that ran, `CLK` is latched high; no other operation writes that latch. -/
def Obligations.ClockIdlesHigh : Prop :=
  ∀ (i : Instr) (s t : State), exec i s = .next t →
    t.lat.clk = if shifts i = true ∧ answeredOk t = true then true else s.lat.clk

/-- R162 (collected by the spec from the operation rules): the virtual time and the number of own events of every operation that completes with `Ok`, and none of either for
one that fails. -/
def Obligations.DurationsAndEventCounts : Prop :=
  ∀ (i : Instr) (s t : State), exec i s = .next t → ∃ new, t.trace = s.trace ++ new ∧
    if answeredOk t = true then t.now = s.now + durationOf i ∧ (ownEvents new).length = eventCountOf i
    else t.now = s.now ∧ new = []

/-! ### Lines, pads and registers -/

/-- R100: `PinDir` changes the direction of its line and no latch, and appends its event even if nothing changes; the pad then
shows the level latched before, or the environment's. -/
def Obligations.PinDirAssertsNoLevel : Prop :=
  ∀ (s : State) (l : Line) (d : Dir),
    pinDir l d s = { withEvents [⟨s.now, .dir l d⟩] s with dir := s.dir.set l d } ∧
    (pinDir l d s).dir.get l = d ∧ (∀ k, k ≠ l → (pinDir l d s).dir.get k = s.dir.get k) ∧
    ∀ ext, pad (pinDir l d s) ext l = if d = .output then s.lat.get l else ext.get l

/-- R101: `PinWrite` of an output writes its latch and the pad follows at once; of an input it is a violation, whose kind is
decision D8's for the four lines an operation writes (for `IRQ` and `FD`, which none writes, log 12 names one). -/
def Obligations.PinWriteSetsTheLevel : Prop :=
  (∀ (s : State) (op : Op) (l : Line) (v : Level), s.dir.get l = .output →
    ∃ t, pinWrite op l v s = .next t ∧
      t = { withEvents [⟨s.now, .drive l v⟩] s with lat := s.lat.set l v } ∧ t.lat.get l = v ∧
      (∀ k, k ≠ l → t.lat.get k = s.lat.get k) ∧
      (∀ ext, pad t ext l = v) ∧ (∀ ext k, k ≠ l → pad t ext k = pad s ext k) ∧ (pinRead l t).1 = v) ∧
  (∀ (s : State) (op : Op) (v : Level), let evs := s.trace ++ wakesDue s.now s.wk (s.changes.headD [])
    (s.dir.sel = .input → pinWrite op .sel v s = .fault (.notEnabled op evs)) ∧
    (s.dir.clk = .input → pinWrite op .clk v s = .fault (.notEnabled op evs)) ∧
    (s.dir.pwr = .input → pinWrite op .pwr v s = .fault (.notEnabled op evs)) ∧
    (s.dir.dat = .input → pinWrite op .dat v s = .fault (.notSending op evs)))

/-- R102, R71: `PinRead` gives the latch of an output and the environment's level of an input, appends its event at `NOW` and
writes no state of the block; only the read of an input uses up a level of the environment, so that a second one finds
the next. -/
def Obligations.PinReadSamplesTheLine : Prop :=
  ∀ (s : State) (l : Line),
    (s.dir.get l = .output →
      pinRead l s = (s.lat.get l, withEvents [⟨s.now, .sample l (s.lat.get l)⟩] s)) ∧
    (s.dir.get l = .input →
      pinRead l s = (levelAt s 0, withEvents [⟨s.now, .sample l (levelAt s 0)⟩] (afterDraws 1 s)) ∧
      (pinRead l (pinRead l s).2).1 = levelAt s 1)

/-- R103: `Delay(n)` moves virtual time on by `n`, appends its event at the new time and does nothing else: every pad shows what
it showed, and the environment's next levels are still to come. -/
def Obligations.DelayAdvancesTime : Prop :=
  ∀ (s : State) (n : Nat),
    delay n s = { withEvents [⟨s.now + n, .delay n⟩] s with now := s.now + n } ∧
    (∀ ext l, pad (delay n s) ext l = pad s ext l) ∧ levelAt (delay n s) = levelAt s

/-- R35 (decision D2): the positions of the fields in the register views, and the hardwired bits of `DIR` in every state that
meets the invariant. -/
def Obligations.RegisterViews : Prop :=
  ∀ (s : State) (ext : Lines Level),
    ((dirReg s).getLsbD 0 = dirBit s.dir.sel ∧ (dirReg s).getLsbD 1 = dirBit s.dir.clk ∧
      (dirReg s).getLsbD 2 = dirBit s.dir.dat ∧ (dirReg s).getLsbD 3 = dirBit s.dir.pwr) ∧
    (StateInv s → (dirReg s).getLsbD 4 = false ∧ (dirReg s).getLsbD 5 = false) ∧
    ((latReg s).getLsbD 0 = s.lat.sel ∧ (latReg s).getLsbD 1 = s.lat.clk ∧ (latReg s).getLsbD 2 = s.lat.dat ∧
      (latReg s).getLsbD 3 = s.lat.pwr ∧ (latReg s).getLsbD 4 = s.lat.irq ∧ (latReg s).getLsbD 5 = s.lat.fd) ∧
    ((wkReg s).getLsbD 2 = s.wk.gie ∧ (wkReg s).getLsbD 1 = s.wk.dr ∧ (wkReg s).getLsbD 0 = s.wk.fd) ∧
    (pinReg s ext).getLsbD 0 = pad s ext .sel ∧ (pinReg s ext).getLsbD 1 = pad s ext .clk ∧
    (pinReg s ext).getLsbD 2 = pad s ext .dat ∧ (pinReg s ext).getLsbD 3 = pad s ext .pwr ∧
    (pinReg s ext).getLsbD 4 = pad s ext .irq ∧ (pinReg s ext).getLsbD 5 = pad s ext .fd

/-- R21: which operations write which direction bit. -/
def Obligations.DirectionWriters : Prop :=
  ∀ (i : Instr) (s t : State), exec i s = .next t →
    (t.dir.dat = if i = .beginSend then .output else if i = .endSend ∨ i = .init then .input else s.dir.dat) ∧
    (t.dir.sel = if i = .init then .output else if i = .disable then .input else s.dir.sel) ∧
    (t.dir.clk = if i = .init then .output else if i = .disable then .input else s.dir.clk) ∧
    (t.dir.pwr = if i = .init then .output else if i = .disable then .input else s.dir.pwr) ∧
    (s.dir.irq = .input → t.dir.irq = .input) ∧ (s.dir.fd = .input → t.dir.fd = .input)

/-- R22, R35: which operations write which latch, and (the spec's own inference) that no operation writes those of `IRQ` and
`FD`. -/
def Obligations.LatchWriters : Prop :=
  ∀ (i : Instr) (s t : State), exec i s = .next t →
    (t.lat.sel = if i = .beginSend then false else if i = .endSend then true else s.lat.sel) ∧
    (t.lat.pwr = if i = .suspend then false else if i = .resume then true else s.lat.pwr) ∧
    (t.lat.dat ≠ s.lat.dat → (∃ v, i = .sendByte v) ∨ ∃ p len, i = .sendBuffer p len) ∧
    t.lat.irq = s.lat.irq ∧ t.lat.fd = s.lat.fd

/-- R43, R53: the wake flags survive every operation but the two that write them, no operation changes an
element of the transmit buffer, and none but `getBuffer` one of the receive buffer. -/
def Obligations.WakeFlagAndBufferWriters : Prop :=
  ∀ (i : Instr) (s t : State), exec i s = .next t →
    (setsWake i = false → t.wk = s.wk) ∧ t.tx = s.tx ∧ ((∀ p len, i ≠ .getBuffer p len) → t.rx = s.rx) ∧
    t.inputs = s.inputs

/-! ### Violations, reset, invariants -/

/-- R183 (decisions D7, D8, D9, D15, D26): in a state that meets the invariant an operation completes exactly when it is no contract violation. -/
def Obligations.CompletesUnlessViolation : Prop :=
  ∀ (i : Instr) (s : State), StateInv s → ((∃ t, exec i s = .next t) ↔ ¬ Violates i s)

/-- R80: each of the fourteen operations has a meaning in every state, be it a violation (R183); the model refuses none. -/
def Obligations.NothingIsRefused : Prop :=
  ∀ (i : Instr) (s : State) (x : Refusal), exec i s ≠ .refused x

/-- R40: the state after reset, in both variants; the directions of `SEL`, `CLK` and `PWR` are decision D3, the count of the
variant D17, and the latches and the wake flags are the open parameters (D4, D5), of which nothing is known (logs 2, 3). -/
def Obligations.ResetLeaves : Prop :=
  State.reset = State.resetWith false ∧
  ∀ refcount : Bool, let s := State.resetWith refcount
    s.dir = ⟨.input, .input, .input, .input, .input, .input⟩ ∧ s.lat = Config.resetLat ∧
    s.wk.fd = Config.resetFd ∧ s.wk.dr = Config.resetDr ∧ s.wk.gie = Config.resetGie ∧
    s.wk.cnt = (if refcount then some (maskCount s.wk) else none) ∧
    s.now = 0 ∧ s.trace = [] ∧ disabled s = true ∧ sending s = false ∧
    ∀ ext l, pad s ext l = ext.get l

/-- R210 (the spec's own inference from R40 and R183): after reset, of the default block and of the variant, the operations
that are no violation are `init`, `disable`, the two queries and the two wake operations; a buffer operation with bad
arguments is answered as an error, which is no violation either (R186). -/
def Obligations.AllowedAfterReset : Prop :=
  ∀ (refcount : Bool) (i : Instr), (∃ t, exec i (State.resetWith refcount) = .next t) ↔
    i ∈ [.init, .disable, .dataReady, .fieldPresent] ∨ setsWake i = true ∨
    ∃ p len, (p = false ∨ len = 0) ∧ (i = .sendBuffer p len ∨ i = .getBuffer p len)

/-- R211 (decision D3): the reset puts the block in the state after reset from any state. That it leaves the caller's
buffers and the rest of the outside world alone, and empties the list of responses, is the model's choice (logs 14, 16). -/
def Obligations.ResetFromAnyState : Prop :=
  ∀ (s : State) (rest : List Input), s.inputs = .reset :: rest →
    ∃ t, step s = .next t ∧ t = { State.resetWith s.wk.cnt.isSome with
      sr := t.sr, bitcnt := t.bitcnt, idx := t.idx, fresh := t.fresh
      tx := s.tx, rx := s.rx, inputs := rest, changes := s.changes, draws := s.draws, drawn := s.drawn }

/-- R211 (decision D3): a reset that strikes inside an operation, also one that would have ended in a violation later, or
during a word that is no operation, leaves the state after reset, and nothing is reported. The elements of the receive
buffer whose forty micro-operations were done are stored, and the levels sampled and the changes gone by are used up.
(What a reset leaves alone outside the block is the model's choice: logs 9, 16.) -/
def Obligations.ResetCutsAnOperationShort : Prop :=
  ∀ (s : State) (w : CmdWord) (n : Nat) (rest : List Input), s.inputs = .cut w n :: rest →
    let s0 := { s with inputs := rest }
    (∀ i, decode w = .ok i → n ≤ (microOps i s0).length →
      let k := sampleCount ((microOps i s0).take n)
      ∃ t, step s = .next t ∧ t = { State.resetWith s.wk.cnt.isSome with
        sr := t.sr, bitcnt := t.bitcnt, idx := t.idx, fresh := t.fresh
        tx := s.tx, rx := t.rx, inputs := rest, changes := s.changes.drop n
        draws := (afterDraws k s).draws, drawn := (afterDraws k s).drawn } ∧
        ∀ j, memRead t.rx j =
          if i.op = .getBuffer ∧ j < n / 40 then some (byteOf fun b => levelAt s (8 * j + b)) else memRead s.rx j) ∧
    ((∀ i, decode w ≠ .ok i) →
      ∃ t, step s = .next t ∧ t = { State.resetWith s.wk.cnt.isSome with
        sr := t.sr, bitcnt := t.bitcnt, idx := t.idx, fresh := t.fresh
        tx := s.tx, rx := s.rx, inputs := rest, changes := s.changes, draws := s.draws, drawn := s.drawn })

/-- R211, R183: an operation that is over before the reset strikes has its whole effect outside the block (the receive buffer,
the levels and changes used up) and the reset then leaves the state after reset; a violation it ends in stays one. (The
model's choice of what a reset leaves alone: logs 9, 16.) -/
def Obligations.ResetFindsAnEndedOperation : Prop :=
  ∀ (s : State) (w : CmdWord) (n : Nat) (rest : List Input) (i : Instr), s.inputs = .cut w n :: rest →
    decode w = .ok i → let s0 := { s with inputs := rest }
    (microOps i s0).length < n →
    (∀ u, exec i s0 = .next u → ∃ t, step s = .next t ∧ t = { State.resetWith s.wk.cnt.isSome with
      sr := t.sr, bitcnt := t.bitcnt, idx := t.idx, fresh := t.fresh
      tx := s.tx, rx := u.rx, inputs := rest, changes := u.changes, draws := u.draws, drawn := u.drawn }) ∧
    (∀ x, exec i s0 = .fault x → step s = .fault x)

/-- R41 (a) to (e) (the spec's own inference): every step keeps the invariant of the machine. -/
def Obligations.StepKeepsInvariant : Prop :=
  ∀ s t : State, StateInv s → step s = .next t → StateInv t

/-- The invariant of the machine holds after reset, in both variants. -/
def Obligations.ResetMeetsInvariant : Prop :=
  StateInv State.reset ∧ StateInv (State.resetWith true)

/-- R36, R37, R63: every step keeps `NOW` the sum of the delays on `TRACE`, and `TRACE` in the order of time. -/
def Obligations.StepKeepsTimeInvariant : Prop :=
  ∀ s t : State, TimeInv s → step s = .next t → TimeInv t

/-- The invariant of time holds after reset, in both variants. -/
def Obligations.ResetMeetsTimeInvariant : Prop :=
  TimeInv State.reset ∧ TimeInv (State.resetWith true)
end

