-- ==== Sys2Proof/Laws/State.lean ====
section
/-!
SUPPORT. The small laws of the named updates of the state: what each leaves in every field, true by unfolding. Written
once here, so that no later proof unfolds a record update.
-/

namespace Sys2Proof.Machine

/-! ### `record` -/

@[simp] theorem record_dir (e : Event) (s : State) : (record e s).dir = s.dir := rfl
@[simp] theorem record_lat (e : Event) (s : State) : (record e s).lat = s.lat := rfl
@[simp] theorem record_wk (e : Event) (s : State) : (record e s).wk = s.wk := rfl
@[simp] theorem record_sr (e : Event) (s : State) : (record e s).sr = s.sr := rfl
@[simp] theorem record_bitcnt (e : Event) (s : State) : (record e s).bitcnt = s.bitcnt := rfl
@[simp] theorem record_idx (e : Event) (s : State) : (record e s).idx = s.idx := rfl
@[simp] theorem record_now (e : Event) (s : State) : (record e s).now = s.now := rfl
@[simp] theorem record_trace (e : Event) (s : State) : (record e s).trace = s.trace ++ [⟨s.now, e⟩] := rfl
@[simp] theorem record_responses (e : Event) (s : State) : (record e s).responses = s.responses := rfl
@[simp] theorem record_tx (e : Event) (s : State) : (record e s).tx = s.tx := rfl
@[simp] theorem record_rx (e : Event) (s : State) : (record e s).rx = s.rx := rfl
@[simp] theorem record_inputs (e : Event) (s : State) : (record e s).inputs = s.inputs := rfl
@[simp] theorem record_changes (e : Event) (s : State) : (record e s).changes = s.changes := rfl
@[simp] theorem record_draws (e : Event) (s : State) : (record e s).draws = s.draws := rfl
@[simp] theorem record_drawn (e : Event) (s : State) : (record e s).drawn = s.drawn := rfl
@[simp] theorem record_fresh (e : Event) (s : State) : (record e s).fresh = s.fresh := rfl

/-! ### `respond` -/

@[simp] theorem respond_dir (st : Status) (v : Byte) (s : State) : (respond st v s).dir = s.dir := rfl
@[simp] theorem respond_lat (st : Status) (v : Byte) (s : State) : (respond st v s).lat = s.lat := rfl
@[simp] theorem respond_wk (st : Status) (v : Byte) (s : State) : (respond st v s).wk = s.wk := rfl
@[simp] theorem respond_sr (st : Status) (v : Byte) (s : State) : (respond st v s).sr = s.sr := rfl
@[simp] theorem respond_bitcnt (st : Status) (v : Byte) (s : State) : (respond st v s).bitcnt = s.bitcnt := rfl
@[simp] theorem respond_idx (st : Status) (v : Byte) (s : State) : (respond st v s).idx = s.idx := rfl
@[simp] theorem respond_now (st : Status) (v : Byte) (s : State) : (respond st v s).now = s.now := rfl
@[simp] theorem respond_trace (st : Status) (v : Byte) (s : State) : (respond st v s).trace = s.trace := rfl
@[simp] theorem respond_responses (st : Status) (v : Byte) (s : State) : (respond st v s).responses = s.responses ++ [⟨st, v⟩] := rfl
@[simp] theorem respond_tx (st : Status) (v : Byte) (s : State) : (respond st v s).tx = s.tx := rfl
@[simp] theorem respond_rx (st : Status) (v : Byte) (s : State) : (respond st v s).rx = s.rx := rfl
@[simp] theorem respond_inputs (st : Status) (v : Byte) (s : State) : (respond st v s).inputs = s.inputs := rfl
@[simp] theorem respond_changes (st : Status) (v : Byte) (s : State) : (respond st v s).changes = s.changes := rfl
@[simp] theorem respond_draws (st : Status) (v : Byte) (s : State) : (respond st v s).draws = s.draws := rfl
@[simp] theorem respond_drawn (st : Status) (v : Byte) (s : State) : (respond st v s).drawn = s.drawn := rfl
@[simp] theorem respond_fresh (st : Status) (v : Byte) (s : State) : (respond st v s).fresh = s.fresh := rfl

/-! ### `withEvents` -/

@[simp] theorem withEvents_dir (evs : List Stamped) (s : State) : (withEvents evs s).dir = s.dir := rfl
@[simp] theorem withEvents_lat (evs : List Stamped) (s : State) : (withEvents evs s).lat = s.lat := rfl
@[simp] theorem withEvents_wk (evs : List Stamped) (s : State) : (withEvents evs s).wk = s.wk := rfl
@[simp] theorem withEvents_sr (evs : List Stamped) (s : State) : (withEvents evs s).sr = s.sr := rfl
@[simp] theorem withEvents_bitcnt (evs : List Stamped) (s : State) : (withEvents evs s).bitcnt = s.bitcnt := rfl
@[simp] theorem withEvents_idx (evs : List Stamped) (s : State) : (withEvents evs s).idx = s.idx := rfl
@[simp] theorem withEvents_now (evs : List Stamped) (s : State) : (withEvents evs s).now = s.now := rfl
@[simp] theorem withEvents_trace (evs : List Stamped) (s : State) : (withEvents evs s).trace = s.trace ++ weave s.wk s.changes evs := rfl
@[simp] theorem withEvents_responses (evs : List Stamped) (s : State) : (withEvents evs s).responses = s.responses := rfl
@[simp] theorem withEvents_tx (evs : List Stamped) (s : State) : (withEvents evs s).tx = s.tx := rfl
@[simp] theorem withEvents_rx (evs : List Stamped) (s : State) : (withEvents evs s).rx = s.rx := rfl
@[simp] theorem withEvents_inputs (evs : List Stamped) (s : State) : (withEvents evs s).inputs = s.inputs := rfl
@[simp] theorem withEvents_changes (evs : List Stamped) (s : State) : (withEvents evs s).changes = s.changes.drop evs.length := rfl
@[simp] theorem withEvents_draws (evs : List Stamped) (s : State) : (withEvents evs s).draws = s.draws := rfl
@[simp] theorem withEvents_drawn (evs : List Stamped) (s : State) : (withEvents evs s).drawn = s.drawn := rfl
@[simp] theorem withEvents_fresh (evs : List Stamped) (s : State) : (withEvents evs s).fresh = s.fresh := rfl

/-! ### `afterDraws` -/

@[simp] theorem afterDraws_dir (k : Nat) (s : State) : (afterDraws k s).dir = s.dir := rfl
@[simp] theorem afterDraws_lat (k : Nat) (s : State) : (afterDraws k s).lat = s.lat := rfl
@[simp] theorem afterDraws_wk (k : Nat) (s : State) : (afterDraws k s).wk = s.wk := rfl
@[simp] theorem afterDraws_sr (k : Nat) (s : State) : (afterDraws k s).sr = s.sr := rfl
@[simp] theorem afterDraws_bitcnt (k : Nat) (s : State) : (afterDraws k s).bitcnt = s.bitcnt := rfl
@[simp] theorem afterDraws_idx (k : Nat) (s : State) : (afterDraws k s).idx = s.idx := rfl
@[simp] theorem afterDraws_now (k : Nat) (s : State) : (afterDraws k s).now = s.now := rfl
@[simp] theorem afterDraws_trace (k : Nat) (s : State) : (afterDraws k s).trace = s.trace := rfl
@[simp] theorem afterDraws_responses (k : Nat) (s : State) : (afterDraws k s).responses = s.responses := rfl
@[simp] theorem afterDraws_tx (k : Nat) (s : State) : (afterDraws k s).tx = s.tx := rfl
@[simp] theorem afterDraws_rx (k : Nat) (s : State) : (afterDraws k s).rx = s.rx := rfl
@[simp] theorem afterDraws_inputs (k : Nat) (s : State) : (afterDraws k s).inputs = s.inputs := rfl
@[simp] theorem afterDraws_changes (k : Nat) (s : State) : (afterDraws k s).changes = s.changes := rfl
@[simp] theorem afterDraws_draws (k : Nat) (s : State) : (afterDraws k s).draws = s.draws.drop k := rfl
@[simp] theorem afterDraws_drawn (k : Nat) (s : State) : (afterDraws k s).drawn = s.drawn + (k - s.draws.length) := rfl
@[simp] theorem afterDraws_fresh (k : Nat) (s : State) : (afterDraws k s).fresh = s.fresh := rfl

/-! ### `releaseByteRegs` -/

@[simp] theorem releaseByteRegs_dir (s : State) : (releaseByteRegs s).dir = s.dir := rfl
@[simp] theorem releaseByteRegs_lat (s : State) : (releaseByteRegs s).lat = s.lat := rfl
@[simp] theorem releaseByteRegs_wk (s : State) : (releaseByteRegs s).wk = s.wk := rfl
@[simp] theorem releaseByteRegs_sr (s : State) : (releaseByteRegs s).sr = Config.freeSr s.fresh := rfl
@[simp] theorem releaseByteRegs_bitcnt (s : State) : (releaseByteRegs s).bitcnt = Config.freeBitcnt s.fresh := rfl
@[simp] theorem releaseByteRegs_idx (s : State) : (releaseByteRegs s).idx = s.idx := rfl
@[simp] theorem releaseByteRegs_now (s : State) : (releaseByteRegs s).now = s.now := rfl
@[simp] theorem releaseByteRegs_trace (s : State) : (releaseByteRegs s).trace = s.trace := rfl
@[simp] theorem releaseByteRegs_responses (s : State) : (releaseByteRegs s).responses = s.responses := rfl
@[simp] theorem releaseByteRegs_tx (s : State) : (releaseByteRegs s).tx = s.tx := rfl
@[simp] theorem releaseByteRegs_rx (s : State) : (releaseByteRegs s).rx = s.rx := rfl
@[simp] theorem releaseByteRegs_inputs (s : State) : (releaseByteRegs s).inputs = s.inputs := rfl
@[simp] theorem releaseByteRegs_changes (s : State) : (releaseByteRegs s).changes = s.changes := rfl
@[simp] theorem releaseByteRegs_draws (s : State) : (releaseByteRegs s).draws = s.draws := rfl
@[simp] theorem releaseByteRegs_drawn (s : State) : (releaseByteRegs s).drawn = s.drawn := rfl
@[simp] theorem releaseByteRegs_fresh (s : State) : (releaseByteRegs s).fresh = s.fresh + 1 := rfl

/-! ### `releaseBufferRegs` -/

@[simp] theorem releaseBufferRegs_dir (s : State) : (releaseBufferRegs s).dir = s.dir := rfl
@[simp] theorem releaseBufferRegs_lat (s : State) : (releaseBufferRegs s).lat = s.lat := rfl
@[simp] theorem releaseBufferRegs_wk (s : State) : (releaseBufferRegs s).wk = s.wk := rfl
@[simp] theorem releaseBufferRegs_sr (s : State) : (releaseBufferRegs s).sr = Config.freeSr s.fresh := rfl
@[simp] theorem releaseBufferRegs_bitcnt (s : State) : (releaseBufferRegs s).bitcnt = Config.freeBitcnt s.fresh := rfl
@[simp] theorem releaseBufferRegs_idx (s : State) : (releaseBufferRegs s).idx = Config.freeIdx s.fresh := rfl
@[simp] theorem releaseBufferRegs_now (s : State) : (releaseBufferRegs s).now = s.now := rfl
@[simp] theorem releaseBufferRegs_trace (s : State) : (releaseBufferRegs s).trace = s.trace := rfl
@[simp] theorem releaseBufferRegs_responses (s : State) : (releaseBufferRegs s).responses = s.responses := rfl
@[simp] theorem releaseBufferRegs_tx (s : State) : (releaseBufferRegs s).tx = s.tx := rfl
@[simp] theorem releaseBufferRegs_rx (s : State) : (releaseBufferRegs s).rx = s.rx := rfl
@[simp] theorem releaseBufferRegs_inputs (s : State) : (releaseBufferRegs s).inputs = s.inputs := rfl
@[simp] theorem releaseBufferRegs_changes (s : State) : (releaseBufferRegs s).changes = s.changes := rfl
@[simp] theorem releaseBufferRegs_draws (s : State) : (releaseBufferRegs s).draws = s.draws := rfl
@[simp] theorem releaseBufferRegs_drawn (s : State) : (releaseBufferRegs s).drawn = s.drawn := rfl
@[simp] theorem releaseBufferRegs_fresh (s : State) : (releaseBufferRegs s).fresh = s.fresh + 1 := rfl

/-! ### `placeCommand` -/

@[simp] theorem placeCommand_dir (w : CmdWord) (s : State) : (placeCommand w s).dir = s.dir := rfl
@[simp] theorem placeCommand_lat (w : CmdWord) (s : State) : (placeCommand w s).lat = s.lat := rfl
@[simp] theorem placeCommand_wk (w : CmdWord) (s : State) : (placeCommand w s).wk = s.wk := rfl
@[simp] theorem placeCommand_sr (w : CmdWord) (s : State) : (placeCommand w s).sr = s.sr := rfl
@[simp] theorem placeCommand_bitcnt (w : CmdWord) (s : State) : (placeCommand w s).bitcnt = s.bitcnt := rfl
@[simp] theorem placeCommand_idx (w : CmdWord) (s : State) : (placeCommand w s).idx = s.idx := rfl
@[simp] theorem placeCommand_now (w : CmdWord) (s : State) : (placeCommand w s).now = s.now := rfl
@[simp] theorem placeCommand_trace (w : CmdWord) (s : State) : (placeCommand w s).trace = s.trace := rfl
@[simp] theorem placeCommand_responses (w : CmdWord) (s : State) : (placeCommand w s).responses = s.responses := rfl
@[simp] theorem placeCommand_tx (w : CmdWord) (s : State) : (placeCommand w s).tx = s.tx := rfl
@[simp] theorem placeCommand_rx (w : CmdWord) (s : State) : (placeCommand w s).rx = s.rx := rfl
@[simp] theorem placeCommand_inputs (w : CmdWord) (s : State) : (placeCommand w s).inputs = .command w :: s.inputs := rfl
@[simp] theorem placeCommand_changes (w : CmdWord) (s : State) : (placeCommand w s).changes = s.changes := rfl
@[simp] theorem placeCommand_draws (w : CmdWord) (s : State) : (placeCommand w s).draws = s.draws := rfl
@[simp] theorem placeCommand_drawn (w : CmdWord) (s : State) : (placeCommand w s).drawn = s.drawn := rfl
@[simp] theorem placeCommand_fresh (w : CmdWord) (s : State) : (placeCommand w s).fresh = s.fresh := rfl

end Sys2Proof.Machine
end

