-- ==== Sys2Proof/Laws/Memory.lean ====
section
/-!
SUPPORT. The laws of the caller's buffers (20_memory.md R52, R53): a read after a write, and that every operation keeps
the canonical form.
-/

namespace Sys2Proof.Machine

/-- The element just written is read back. -/
@[simp] theorem memRead_memWrite_same (m : Memory) (k : Nat) (v : Byte) :
    memRead (memWrite m k v) k = some v := by
  induction m with
  | nil => simp [memWrite, memRead]
  | cons c rest ih =>
    obtain ⟨a, w⟩ := c
    unfold memWrite
    split_ifs with h1 h2
    · simp [memRead]
    · simp [memRead]
    · simpa [memRead, Ne.symm h2] using ih

/-- A write leaves every other element alone. -/
theorem memRead_memWrite_other (m : Memory) {j k : Nat} (v : Byte) (h : j ≠ k) :
    memRead (memWrite m k v) j = memRead m j := by
  induction m with
  | nil => simp [memWrite, memRead, Ne.symm h]
  | cons c rest ih =>
    obtain ⟨a, w⟩ := c
    unfold memWrite
    split_ifs with h1 h2
    · simp [memRead, Ne.symm h]
    · subst h2; simp [memRead, Ne.symm h]
    · simp only [memRead]; split_ifs <;> simp_all

/-- The canonical form of a longer buffer: its head lies below the head of the rest. -/
theorem Memory.wf_cons (a : Nat) (v : Byte) (m : Memory) :
    Memory.wf ((a, v) :: m) = true ↔ (∀ c ∈ m.head?, a < c.1) ∧ Memory.wf m = true := by
  cases m with
  | nil => simp [Memory.wf]
  | cons c rest => obtain ⟨b, w⟩ := c; simp [Memory.wf]

/-- The lowest index of a buffer after a write. -/
theorem memWrite_head (m : Memory) (k : Nat) (v : Byte) (a : Nat) (hk : a < k)
    (h : ∀ c ∈ m.head?, a < c.1) : ∀ c ∈ (memWrite m k v).head?, a < c.1 := by
  cases m with
  | nil => simpa [memWrite] using hk
  | cons c rest =>
    obtain ⟨b, w⟩ := c
    unfold memWrite
    split_ifs <;> simp_all

/-- A write keeps the canonical form. -/
theorem memWrite_wf (m : Memory) (k : Nat) (v : Byte) (h : Memory.wf m = true) :
    Memory.wf (memWrite m k v) = true := by
  induction m with
  | nil => simp [memWrite, Memory.wf]
  | cons c rest ih =>
    obtain ⟨a, w⟩ := c
    have hc := (Memory.wf_cons a w rest).mp h
    unfold memWrite
    split_ifs with h1 h2
    · rw [Memory.wf_cons]; exact ⟨by simpa using h1, h⟩
    · subst h2; rw [Memory.wf_cons]; exact hc
    · rw [Memory.wf_cons]
      exact ⟨memWrite_head rest k v a (by omega) hc.1, ih hc.2⟩

/-- A buffer made of bytes is in canonical form. -/
theorem bytesFrom_wf (bytes : List Byte) (base : Nat) : Memory.wf (bytesFrom base bytes) = true := by
  induction bytes generalizing base with
  | nil => rfl
  | cons v rest ih =>
    rw [bytesFrom, Memory.wf_cons]
    refine ⟨?_, ih (base + 1)⟩
    cases rest <;> simp [bytesFrom]

/-- A buffer the host supplies is in canonical form. -/
theorem bufferOf_wf (bytes : List Byte) : Memory.wf (bufferOf bytes) = true := bytesFrom_wf bytes 0

/-- What a buffer made of bytes holds at an index. -/
theorem memRead_bytesFrom (bytes : List Byte) (base k : Nat) :
    memRead (bytesFrom base bytes) (base + k) = bytes[k]? := by
  induction bytes generalizing base k with
  | nil => simp [bytesFrom, memRead]
  | cons v rest ih =>
    cases k with
    | zero => simp [bytesFrom, memRead]
    | succ k =>
      have := ih (base + 1) k
      rw [show base + 1 + k = base + (k + 1) by omega] at this
      simp [bytesFrom, memRead, this]

/-- A supplied buffer holds its bytes, element 0 first (R52). -/
theorem memRead_bufferOf (bytes : List Byte) (k : Nat) : memRead (bufferOf bytes) k = bytes[k]? := by
  simpa [bufferOf] using memRead_bytesFrom bytes 0 k

/-- The buffers of the state after reset are in canonical form. -/
theorem reset_buffers_wf :
    Memory.wf State.reset.tx = true ∧ Memory.wf State.reset.rx = true := by decide

end Sys2Proof.Machine
end

