-- ==== Sys2Proof/Laws/Ops.lean ====
section
/-!
SUPPORT. One lemma for each shared operation that says everything it can do: the environment's turn, the four
micro-operations, the draws, sequencing and repetition, and the moves of the outside.
-/

namespace Sys2Proof.Machine

/-! ### Lists of events -/

@[simp] theorem weave_nil (w : WakeFlags) (ch : List (List WakeSource)) : weave w ch [] = [] := rfl

@[simp] theorem weave_cons (w : WakeFlags) (ch : List (List WakeSource)) (e : Stamped) (es : List Stamped) :
    weave w ch (e :: es) = wakesDue (startTime e) w (ch.headD []) ++ e :: weave w ch.tail es := rfl

/-- Weaving two runs of events, one after the other. -/
theorem weave_append (w : WakeFlags) (ch : List (List WakeSource)) (a b : List Stamped) :
    weave w ch (a ++ b) = weave w ch a ++ weave w (ch.drop a.length) b := by
  induction a generalizing ch with
  | nil => simp
  | cons e es ih => simp [ih, List.drop_tail]

/-- Where the environment does not move, only the block's own events stand on `TRACE`. -/
theorem weave_quiet (w : WakeFlags) (evs : List Stamped) : weave w [] evs = evs := by
  induction evs with
  | nil => rfl
  | cons e es ih => simp [ih, wakesDue]

/-- Leaving out the wake events gives back the block's own ones. -/
theorem ownEvents_weave (w : WakeFlags) (ch : List (List WakeSource)) (evs : List Stamped)
    (h : ∀ e ∈ evs, isWake e = false) : ownEvents (weave w ch evs) = evs := by
  induction evs generalizing ch with
  | nil => rfl
  | cons e es ih =>
    have hw : ownEvents (wakesDue (startTime e) w (ch.headD [])) = [] := by
      simp only [ownEvents, wakesDue, List.filter_eq_nil_iff, List.mem_map]
      rintro _ ⟨src, -, rfl⟩
      simp [isWake]
    have := ih ch.tail fun x hx => h x (by simp [hx])
    simp_all [ownEvents]

@[simp] theorem withEvents_nil (s : State) : withEvents [] s = s := by simp [withEvents]

/-- Two runs of events, one after the other, are one. -/
theorem withEvents_withEvents (a b : List Stamped) (s : State) :
    withEvents b (withEvents a s) = withEvents (a ++ b) s := by
  simp [withEvents, weave_append]

/-! ### The environment's turn and the micro-operations -/

theorem watchAll_eq (due : List WakeSource) (s : State) :
    watchAll due s = { s with trace := s.trace ++ wakesDue s.now s.wk due } := by
  induction due generalizing s with
  | nil => simp [watchAll, wakesDue]
  | cons src rest ih =>
    rw [watchAll, ih]
    by_cases h : armed src s.wk = true <;> simp [watch, record, wakesDue, h]

/-- What the environment's turn does: the wake events of the changes due, and the list of changes moves on. -/
theorem envTurn_eq (s : State) :
    envTurn s = { s with trace := s.trace ++ wakesDue s.now s.wk (s.changes.headD []), changes := s.changes.tail } := by
  cases hc : s.changes with
  | nil => simp [envTurn, hc, wakesDue]; rw [← hc]
  | cons due rest => simp [envTurn, hc, watchAll_eq]

/-- `PinDir` (R100): one event, and the direction of the line. -/
theorem pinDir_eq (l : Line) (d : Dir) (s : State) :
    pinDir l d s = { withEvents [⟨s.now, .dir l d⟩] s with dir := s.dir.set l d } := by
  simp [pinDir, envTurn_eq, record, withEvents, startTime]

/-- `PinWrite` (R101) of an output: one event, and the latch of the line. -/
theorem pinWrite_output (op : Op) (l : Line) (v : Level) (s : State) (h : s.dir.get l = .output) :
    pinWrite op l v s = .next { withEvents [⟨s.now, .drive l v⟩] s with lat := s.lat.set l v } := by
  simp [pinWrite, envTurn_eq, record, withEvents, startTime, h]

/-- `PinWrite` (R101) of an input: a violation. -/
theorem pinWrite_input (op : Op) (l : Line) (v : Level) (s : State) (h : s.dir.get l = .input) :
    pinWrite op l v s = .fault (writeViolation op l (envTurn s)) := by
  have : (envTurn s).dir.get l = .input := by simp [envTurn_eq, h]
  simp [pinWrite, this]

/-- When a `PinWrite` answers a next state: the line is an output. -/
theorem pinWrite_eq_next {op : Op} {l : Line} {v : Level} {s t : State} (h : pinWrite op l v s = .next t) :
    s.dir.get l = .output := by
  cases hd : s.dir.get l with
  | output => rfl
  | input => simp [pinWrite_input _ _ _ _ hd] at h

/-- `Delay` (R103): one event, stamped with the new time. -/
theorem delay_eq (n : Nat) (s : State) :
    delay n s = { withEvents [⟨s.now + n, .delay n⟩] s with now := s.now + n } := by
  simp [delay, envTurn_eq, record, withEvents, startTime]

/-- A draw of the environment: the level that is due, and one level is used up. -/
theorem drawLevel_eq (s : State) : drawLevel s = (levelAt s 0, afterDraws 1 s) := by
  cases h : s.draws with
  | nil => simp [drawLevel, levelAt, levelFrom, afterDraws, h]
  | cons v rest => simp [drawLevel, levelAt, levelFrom, afterDraws, h]

/-- `PinRead` (R102) of an output: its latch. -/
theorem pinRead_output (l : Line) (s : State) (h : s.dir.get l = .output) :
    pinRead l s = (s.lat.get l, withEvents [⟨s.now, .sample l (s.lat.get l)⟩] s) := by
  simp [pinRead, envTurn_eq, record, withEvents, startTime, h]

/-- `PinRead` (R102) of an input: the level the environment shows. -/
theorem pinRead_input (l : Line) (s : State) (h : s.dir.get l = .input) :
    pinRead l s = (levelAt s 0, withEvents [⟨s.now, .sample l (levelAt s 0)⟩] (afterDraws 1 s)) := by
  simp [pinRead, drawLevel_eq, envTurn_eq, record, withEvents, startTime, h, levelAt, afterDraws]

/-! ### Draws -/

@[simp] theorem afterDraws_zero (s : State) : afterDraws 0 s = s := by simp [afterDraws]

/-- Levels used up one after the other. -/
theorem afterDraws_afterDraws (j k : Nat) (s : State) :
    afterDraws j (afterDraws k s) = afterDraws (k + j) s := by
  simp only [afterDraws, List.drop_drop, List.length_drop]
  congr 1
  omega

/-- Counting free levels in two stages or in one. -/
theorem fresh_stages (f a b n : Nat) : f + (a - n) + (b - (n - a)) = f + (a + b - n) := by omega

/-- The levels still to come once some are used up. -/
theorem levelFrom_drop (draws : List Level) (f j k : Nat) :
    levelFrom (draws.drop k) (f + (k - draws.length)) j = levelFrom draws f (k + j) := by
  simp only [levelFrom, List.getElem?_drop]
  cases h : draws[k + j]? with
  | some v => rfl
  | none =>
    have : draws.length ≤ k + j := by simpa using h
    simp only [List.length_drop]
    congr 1
    omega

/-- The levels to come, as a function. -/
theorem levelAt_eq (s : State) : levelAt s = levelFrom s.draws s.drawn := rfl

/-- The levels still to come once some are used up, as a function. -/
theorem levelFrom_drop_eq (draws : List Level) (f k : Nat) :
    levelFrom (draws.drop k) (f + (k - draws.length)) = fun j => levelFrom draws f (k + j) :=
  funext fun j => levelFrom_drop draws f j k

/-- The levels still to come once one is used up. -/
theorem levelFrom_tail (draws : List Level) (f j : Nat) :
    levelFrom draws.tail (f + (1 - draws.length)) j = levelFrom draws f (1 + j) := by
  simpa using levelFrom_drop draws f j 1

/-- The levels still to come once some are used up, of a state. -/
theorem levelAt_afterDraws (j k : Nat) (s : State) : levelAt (afterDraws k s) j = levelAt s (k + j) :=
  levelFrom_drop s.draws s.drawn j k

/-! ### Sequencing -/

@[simp] theorem andNext_next (s : State) (k : State → Result) : andNext (.next s) k = k s := rfl

@[simp] theorem andNext_fault (f : Fault) (k : State → Result) : andNext (.fault f) k = .fault f := rfl

@[simp] theorem andNext_refused (r : Refusal) (k : State → Result) : andNext (.refused r) k = .refused r := rfl

/-- When a sequence answers a next state: the first part did, and the rest did from there. -/
theorem andNext_eq_next {r : Result} {k : State → Result} {t : State} :
    andNext r k = .next t ↔ ∃ s, r = .next s ∧ k s = .next t := by
  cases r <;> simp

/-- When a sequence ends in a fault: in its first part, or in the rest. -/
theorem andNext_eq_fault {r : Result} {k : State → Result} {f : Fault} :
    andNext r k = .fault f ↔ r = .fault f ∨ ∃ s, r = .next s ∧ k s = .fault f := by
  cases r <;> simp

/-- A sequence is refused only where a part of it is. -/
theorem andNext_eq_refused {r : Result} {k : State → Result} {x : Refusal} :
    andNext r k = .refused x ↔ r = .refused x ∨ ∃ s, r = .next s ∧ k s = .refused x := by
  cases r <;> simp

@[simp] theorem repeatStep_zero (f : State → Result) (s : State) : repeatStep 0 f s = .next s := rfl

theorem repeatStep_succ (n : Nat) (f : State → Result) (s : State) :
    repeatStep (n + 1) f s = andNext (f s) (repeatStep n f) := rfl

/-- What every step of a repetition keeps, the repetition keeps. -/
theorem repeatStep_keeps {f : State → Result} {P : State → Prop}
    (hf : ∀ s t, P s → f s = .next t → P t) (n : Nat) {s t : State}
    (hs : P s) (h : repeatStep n f s = .next t) : P t := by
  induction n generalizing s with
  | zero => simp at h; exact h ▸ hs
  | succ n ih =>
    rw [repeatStep_succ, andNext_eq_next] at h
    obtain ⟨u, hu, ht⟩ := h
    exact ih (hf s u hs hu) ht

/-! ### The moves of the outside -/

/-- A placed command is the one taken, in the state it was placed in. -/
@[simp] theorem takeCommand_placeCommand (w : CmdWord) (s : State) :
    takeCommand (placeCommand w s) = some (w, s) := rfl

/-- What a command taken from the outside leaves in the state. -/
theorem takeCommand_eq_some {s t : State} {w : CmdWord} (h : takeCommand s = some (w, t)) :
    ∃ rest, s.inputs = .command w :: rest ∧ t = { s with inputs := rest } := by
  unfold takeCommand at h
  split at h
  · next w' rest hi => simp at h; exact ⟨rest, by rw [hi, h.1], h.2.symm⟩
  · simp at h

end Sys2Proof.Machine
end

