-- ==== Sys2Proof/Laws/PerInstr.lean ====
section
/-!
SUPPORT. A statement for every instruction, as syntax: the opcode field of its command word is its operation's opcode
(30_encoding.md R81, R84). One lemma per constructor.
-/

namespace Sys2Proof.Laws.OpcodeField

/-- Bits 15 to 12 of the instruction's word are the opcode of its operation. -/
def Statement (i : Instr) : Prop := opField (encode i) = opcodeOf i.op

/-- The opcode field of a word put together from an opcode and an argument field. -/
theorem opField_append (o : BitVec 4) (a : BitVec 12) : opField (o ++ a) = o := by
  apply BitVec.eq_of_getLsbD_eq
  intro i hi
  have h := BitVec.getLsbD_append (x := o) (y := a) (i := 12 + i)
  simp [hi] at h
  simpa [opField, hi] using h

theorem init : Statement .init := opField_append _ _
theorem disable : Statement .disable := opField_append _ _
theorem suspend : Statement .suspend := opField_append _ _
theorem resume : Statement .resume := opField_append _ _
theorem dataReady : Statement .dataReady := opField_append _ _
theorem fieldPresent : Statement .fieldPresent := opField_append _ _
theorem setWakeOnField (e : Bool) : Statement (.setWakeOnField e) := opField_append _ _
theorem setWakeOnDataReady (e : Bool) : Statement (.setWakeOnDataReady e) := opField_append _ _
theorem beginSend : Statement .beginSend := opField_append _ _
theorem endSend : Statement .endSend := opField_append _ _
theorem sendByte (v : Byte) : Statement (.sendByte v) := opField_append _ _
theorem sendBuffer (p : Bool) (n : Nat) : Statement (.sendBuffer p n) := opField_append _ _
theorem getByte : Statement .getByte := opField_append _ _
theorem getBuffer (p : Bool) (n : Nat) : Statement (.getBuffer p n) := opField_append _ _

end Sys2Proof.Laws.OpcodeField
end

