-- ==== Sys2Proof/Laws/Transfer.lean ====
section
/-!
SUPPORT. What the shared shift operations of the Transfer Engine do (43_transfer.md R153, R155, R157).
-/

namespace Sys2Proof.Machine

/-- One bit step of sending: five events, the clock ends high, the bit stays on the data latch. -/
theorem shiftOutBit_eq (op : Op) (s : State) (hc : s.dir.clk = .output) (hd : s.dir.dat = .output) :
    shiftOutBit op s = .next { withEvents (bitOutEvents s.now (wireBit s.sr s.bitcnt.val)) s with
      lat := { s.lat with clk := true, dat := wireBit s.sr s.bitcnt.val }
      now := s.now + 2, bitcnt := s.bitcnt + 1 } := by
  have h1 : s.dir.get .clk = .output := hc
  simp [shiftOutBit, pinWrite_output, delay_eq, Lines.get, Lines.set, hc, hd, Config.tSettle, bitOutEvents,
    withEvents]

/-- One bit step of receiving: five events, the clock ends high, one level is used up and shifted into `SR`. -/
theorem shiftInStep_eq (op : Op) (s : State) (hc : s.dir.clk = .output) (hd : s.dir.dat = .input) :
    shiftInStep op s = .next { withEvents (bitInEvents s.now (levelAt s 0)) (afterDraws 1 s) with
      lat := { s.lat with clk := true }, sr := shiftInBit s.sr (levelAt s 0)
      now := s.now + 2, bitcnt := s.bitcnt + 1 } := by
  simp [shiftInStep, pinWrite_output, pinRead_input, delay_eq, Lines.get, Lines.set, hc, hd, Config.tSettle,
    bitInEvents, withEvents, levelAt, afterDraws]

/-- The receive law as arithmetic: `SR <- (2 * SR + b) mod 256` (R157). -/
theorem shiftInBit_toNat (sr : Byte) (b : Level) : (shiftInBit sr b).toNat = (2 * sr.toNat + b.toNat) % 256 := by
  have h : b.toNat < 2 := by cases b <;> decide
  simp only [shiftInBit, BitVec.toNat_append, BitVec.extractLsb'_toNat, BitVec.toNat_ofBool,
    Nat.shiftRight_zero, Nat.shiftLeft_eq]
  rw [← Nat.shiftLeft_eq, ← Nat.shiftLeft_add_eq_or_of_lt (by simpa using h), Nat.shiftLeft_eq]
  omega

/-- The byte eight steps of the receive law make, whatever `SR` held before (R157). -/
theorem shiftInBit_eight (sr : Byte) (b : Nat → Level) :
    (List.range 8).foldl (fun r j => shiftInBit r (b j)) sr = byteOf b := by
  apply BitVec.eq_of_toNat_eq
  simp only [List.range, List.range.loop, List.foldl_cons, List.foldl_nil, shiftInBit_toNat, byteOf,
    BitVec.toNat_ofNat]
  omega

@[simp] theorem length_bitOutEvents (t : Nat) (b : Level) : (bitOutEvents t b).length = 5 := rfl

@[simp] theorem length_bitInEvents (t : Nat) (b : Level) : (bitInEvents t b).length = 5 := rfl

/-- A byte shifted out (R153): forty events, sixteen microseconds, the clock ends high and the last bit stays on the data
latch. -/
theorem shiftOutByte_eq (op : Op) (v : Byte) (s : State) (hc : s.dir.clk = .output) (hd : s.dir.dat = .output) :
    shiftOutByte op v s = .next { withEvents (sendByteEvents s.now v) s with
      lat := { s.lat with clk := true, dat := v.getLsbD 0 }
      now := s.now + 16, sr := v, bitcnt := 8 } := by
  simp [shiftOutByte, Config.byteBits, repeatStep_succ, shiftOutBit_eq, hc, hd, withEvents, sendByteEvents,
    List.range, List.range.loop, weave_append, wireBit]

/-- A byte shifted in (R155): forty events, sixteen microseconds, the clock ends high, eight levels are used up, and
the byte they make is in `SR`. -/
theorem shiftInByte_eq (op : Op) (s : State) (hc : s.dir.clk = .output) (hd : s.dir.dat = .input) :
    shiftInByte op s = .next { withEvents (getByteEvents s.now (levelAt s)) (afterDraws 8 s) with
      lat := { s.lat with clk := true }
      now := s.now + 16, sr := byteOf (levelAt s), bitcnt := 8 } := by
  have h := shiftInBit_eight 0#8 (levelAt s)
  simp [List.range, List.range.loop, levelAt] at h
  simp [shiftInByte, Config.byteBits, repeatStep_succ, shiftInStep_eq, hc, hd, withEvents, getByteEvents,
    List.range, List.range.loop, weave_append, levelAt, afterDraws, levelFrom_drop, levelFrom_tail, fresh_stages]
  exact h

/-- A byte is shifted out only where `CLK` and `DAT` are outputs. -/
theorem shiftOutByte_eq_next {op : Op} {v : Byte} {s t : State} (h : shiftOutByte op v s = .next t) :
    s.dir.clk = .output ∧ s.dir.dat = .output := by
  simp only [shiftOutByte, Config.byteBits, repeatStep_succ, shiftOutBit, andNext_eq_next] at h
  obtain ⟨_, ⟨a, ha, b, hb, -⟩, -⟩ := h
  have hc := pinWrite_eq_next ha
  rw [pinWrite_output _ _ _ _ hc] at ha
  have hd := pinWrite_eq_next hb
  simp only [Host.Outcome.next.injEq] at ha
  subst ha
  exact ⟨hc, hd⟩

@[simp] theorem length_sendByteEvents (t : Nat) (v : Byte) : (sendByteEvents t v).length = 40 := by
  simp [sendByteEvents, List.range, List.range.loop]

@[simp] theorem length_getByteEvents (t : Nat) (b : Nat → Level) : (getByteEvents t b).length = 40 := by
  simp [getByteEvents, List.range, List.range.loop]

/-- Bytes sent one after the other, from the element `IDX` points at: the events of those bytes and nothing in
between (R154). -/
theorem repeatStep_sendElement (v : Byte) (bytes : List Byte) (s : State) (hc : s.dir.clk = .output)
    (hd : s.dir.dat = .output) (hm : ∀ k, k < (v :: bytes).length → memRead s.tx (s.idx + k) = (v :: bytes)[k]?) :
    repeatStep (v :: bytes).length sendElement s = .next { withEvents (sendBufferEvents s.now (v :: bytes)) s with
      lat := { s.lat with clk := true, dat := ((v :: bytes).getLastD v).getLsbD 0 }
      now := s.now + 16 * (v :: bytes).length, idx := s.idx + (v :: bytes).length
      sr := (v :: bytes).getLastD v, bitcnt := 8 } := by
  induction bytes generalizing v s with
  | nil =>
    have h0 := hm 0 (by simp)
    simp at h0
    simp [repeatStep_succ, sendElement, h0, shiftOutByte_eq, hc, hd, sendBufferEvents, withEvents]
  | cons w rest ih =>
    have h0 := hm 0 (by simp)
    simp at h0
    rw [List.length_cons, repeatStep_succ]
    simp only [sendElement, h0, shiftOutByte_eq _ _ _ hc hd, andNext_next]
    rw [ih]
    · simp [withEvents, sendBufferEvents, weave_append, List.getLast?_cons]
      omega
    · exact hc
    · exact hd
    · intro k hk
      have := hm (k + 1) (by simpa using hk)
      simpa [Nat.add_assoc, Nat.add_comm 1 k] using this

/-- Elements are sent only where the transmit buffer has them. -/
theorem repeatStep_sendElement_eq_next {n : Nat} {s t : State} (h : repeatStep n sendElement s = .next t) :
    ∃ bytes : List Byte, bytes.length = n ∧ (∀ k, k < n → memRead s.tx (s.idx + k) = bytes[k]?) ∧
      (n ≠ 0 → s.dir.clk = .output ∧ s.dir.dat = .output) := by
  induction n generalizing s with
  | zero => exact ⟨[], rfl, by omega, by omega⟩
  | succ n ih =>
    rw [repeatStep_succ, andNext_eq_next] at h
    obtain ⟨u, hu, ht⟩ := h
    cases hm : memRead s.tx s.idx with
    | none => simp [sendElement, hm] at hu
    | some v =>
      simp only [sendElement, hm, andNext_eq_next] at hu
      obtain ⟨w, hw, hu⟩ := hu
      have hcd := shiftOutByte_eq_next hw
      rw [shiftOutByte_eq _ _ _ hcd.1 hcd.2] at hw
      simp only [Host.Outcome.next.injEq] at hw hu
      subst hw
      subst hu
      obtain ⟨bytes, hl, hb, -⟩ := ih ht
      refine ⟨v :: bytes, by simp [hl], ?_, fun _ => hcd⟩
      intro k hk
      cases k with
      | zero => simpa using hm
      | succ k =>
        have := hb k (by omega)
        simpa [Nat.add_assoc, Nat.add_comm 1 k] using this

/-- The receive buffer after `n` bytes are stored from element `k` on, `bits` being the samples in time order. -/
def storeBytes (m : Memory) (k : Nat) (bits : Nat → Level) : Nat → Memory
  | 0 => m
  | n + 1 => storeBytes (memWrite m k (byteOf bits)) (k + 1) (fun j => bits (8 + j)) n

/-- Storing bytes keeps the canonical form. -/
theorem storeBytes_wf (n : Nat) (m : Memory) (k : Nat) (bits : Nat → Level) (h : Memory.wf m = true) :
    Memory.wf (storeBytes m k bits n) = true := by
  induction n generalizing m k bits with
  | zero => exact h
  | succ n ih => exact ih _ _ _ (memWrite_wf m k _ h)

/-- Elements outside the stored ones are left alone. -/
theorem memRead_storeBytes_other (n : Nat) (m : Memory) (k : Nat) (bits : Nat → Level) (a : Nat)
    (h : a < k ∨ k + n ≤ a) : memRead (storeBytes m k bits n) a = memRead m a := by
  induction n generalizing m k bits with
  | zero => rfl
  | succ n ih =>
    rw [storeBytes, ih _ _ _ (by omega), memRead_memWrite_other _ _ (by omega)]

/-- Each stored element is the byte of its own eight samples. -/
theorem memRead_storeBytes (n : Nat) (m : Memory) (k : Nat) (bits : Nat → Level) (i : Nat) (h : i < n) :
    memRead (storeBytes m k bits n) (k + i) = some (byteOf fun j => bits (8 * i + j)) := by
  induction n generalizing m k bits i with
  | zero => omega
  | succ n ih =>
    cases i with
    | zero =>
      rw [storeBytes, memRead_storeBytes_other _ _ _ _ _ (by omega)]
      simp
    | succ i =>
      have := ih (memWrite m k (byteOf bits)) (k + 1) (fun j => bits (8 + j)) i (by omega)
      rw [show k + 1 + i = k + (i + 1) by omega] at this
      rw [storeBytes, this]
      congr 2
      funext j
      congr 1
      omega

/-- Bytes received one after the other, into the elements from where `IDX` points (R156). -/
theorem repeatStep_getElement (n : Nat) (s : State) (hc : s.dir.clk = .output) (hd : s.dir.dat = .input) :
    repeatStep (n + 1) getElement s = .next
      { withEvents (getBufferEvents s.now (levelAt s) (n + 1)) (afterDraws (8 * (n + 1)) s) with
        lat := { s.lat with clk := true }
        now := s.now + 16 * (n + 1), idx := s.idx + (n + 1)
        rx := storeBytes s.rx s.idx (levelAt s) (n + 1)
        sr := byteOf fun j => levelAt s (8 * n + j), bitcnt := 8 } := by
  induction n generalizing s with
  | zero =>
    simp [repeatStep_succ, getElement, shiftInByte_eq, hc, hd, getBufferEvents, storeBytes, withEvents, afterDraws]
  | succ n ih =>
    rw [repeatStep_succ]
    simp only [getElement, shiftInByte_eq _ _ hc hd, andNext_next]
    rw [ih _ (by exact hc) (by exact hd)]
    have hj : ∀ j, 8 + (8 * n + j) = 8 * (n + 1) + j := by omega
    simp [withEvents, weave_append, getBufferEvents, storeBytes, levelAt_eq, afterDraws, levelFrom_drop_eq,
      fresh_stages, hj]
    omega

end Sys2Proof.Machine
end

