-- ==== Sys2Proof/Laws/Step.lean ====
section
/-!
SUPPORT. Everything a step that gives a next state can be, and everything an operation that a reset cuts can leave, so that
no later proof unfolds `step` or `execCut`.
-/

namespace Sys2Proof.Machine

/-- An operation that a reset cuts leaves the reset of the state it was cut in, or of the state it ended in. -/
theorem execCut_cases {i : Instr} {n : Nat} {s t : State} (h : execCut i n s = .next t) :
    n ≤ (microOps i s).length ∧ t = resetBlock (afterDraws (sampleCount ((microOps i s).take n))
        { s with rx := rxAfter i n s, changes := s.changes.drop n }) ∨
      ∃ u, exec i s = .next u ∧ t = resetBlock u := by
  simp only [execCut] at h
  split at h
  · next hn => cases h; exact .inl ⟨hn, rfl⟩
  · obtain ⟨u, hu, e⟩ := andNext_eq_next.mp h
    cases e; exact .inr ⟨u, hu, rfl⟩

/-- Cut inside, that is when no more micro-operations are done than the operation has, it is the first of the two. -/
theorem execCut_inside {i : Instr} {n : Nat} {s : State}
    (h : n ≤ (microOps i s).length) :
    execCut i n s = .next (resetBlock (afterDraws (sampleCount ((microOps i s).take n))
      { s with rx := rxAfter i n s, changes := s.changes.drop n })) := by
  simp only [execCut]
  rw [if_pos h]

/-- Not cut inside, the operation runs as ever, and the reset finds what it left. -/
theorem execCut_ended {i : Instr} {n : Nat} {s : State} (h : (microOps i s).length < n) :
    execCut i n s = andNext (exec i s) fun t => .next (resetBlock t) := by
  simp only [execCut]
  rw [if_neg (by omega)]

/-- The receive buffer of an operation cut short: as before, or that of a shorter `getBuffer`. -/
theorem rxAfter_cases (i : Instr) (n : Nat) (s : State) :
    rxAfter i n s = s.rx ∨
      i.op = .getBuffer ∧ ∃ t, exec (.getBuffer true (n / 40)) s = .next t ∧ rxAfter i n s = t.rx := by
  unfold rxAfter
  split
  · next hi =>
    cases h : exec (.getBuffer true (n / (5 * Config.byteBits))) s with
    | next t => exact .inr ⟨hi, t, h, rfl⟩
    | fault _ => exact .inl rfl
    | refused _ => exact .inl rfl
  · exact .inl rfl

/-- Everything a step that gives a next state can be. -/
theorem step_cases {s t : State} (h : step s = .next t) :
    (∃ w rest i, s.inputs = .command w :: rest ∧ decode w = .ok i ∧ exec i { s with inputs := rest } = .next t) ∨
    (∃ w rest, s.inputs = .command w :: rest ∧
      t = { s with inputs := rest, responses := s.responses ++ [⟨.illegalCommand w, 0x00#8⟩] }) ∨
    (∃ a b rest, s.inputs = .buffers a b :: rest ∧
      t = { s with inputs := rest, tx := bufferOf a, rx := bufferOf b }) ∨
    (∃ src rest, s.inputs = .pinChange src :: rest ∧ t = watch src { s with inputs := rest }) ∨
    (∃ rest, s.inputs = .reset :: rest ∧ t = resetBlock { s with inputs := rest }) ∨
    (∃ w n rest, s.inputs = .cut w n :: rest ∧
      (t = resetBlock { s with inputs := rest } ∨
        ∃ i, decode w = .ok i ∧ execCut i n { s with inputs := rest } = .next t)) ∨
    s.inputs = [] ∧ t = s := by
  rcases hi : s.inputs with _ | ⟨x, rest⟩
  · simp [step, takeCommand, takeCut, hi, outsideMove] at h
    simp [h]
  · cases x with
    | command w =>
      cases hd : decode w with
      | ok i =>
        simp [step, takeCommand, hi, hd] at h
        exact .inl ⟨w, rest, i, rfl, hd, h⟩
      | error e =>
        simp [step, takeCommand, hi, hd, raiseIllegalCommand, respond] at h
        exact .inr (.inl ⟨w, rest, rfl, h.symm⟩)
    | buffers a b =>
      simp [step, takeCommand, takeCut, hi, outsideMove] at h
      exact .inr (.inr (.inl ⟨a, b, rest, rfl, h.symm⟩))
    | pinChange src =>
      simp [step, takeCommand, takeCut, hi, outsideMove] at h
      exact .inr (.inr (.inr (.inl ⟨src, rest, rfl, h.symm⟩)))
    | reset =>
      simp [step, takeCommand, takeCut, hi, outsideMove] at h
      exact .inr (.inr (.inr (.inr (.inl ⟨rest, rfl, h.symm⟩))))
    | cut w n =>
      cases hd : decode w with
      | ok i =>
        simp [step, takeCommand, takeCut, hi, hd] at h
        exact .inr (.inr (.inr (.inr (.inr (.inl ⟨w, n, rest, rfl, .inr ⟨i, hd, h⟩⟩)))))
      | error e =>
        simp [step, takeCommand, takeCut, hi, hd] at h
        exact .inr (.inr (.inr (.inr (.inr (.inl ⟨w, n, rest, rfl, .inl h.symm⟩)))))

end Sys2Proof.Machine
end

