-- ==== Sys2Proof/Tests/Slice0.lean ====
section
/-!
SUPPORT. The model's own tests: ill-formed terms, one word of every row written out from 30_encoding.md R81 to R84, the
vectors of 95_test_vectors.md (named by their ids), and for every obligation with hypotheses a state and operands that
meet them.
-/

namespace Sys2Proof.Tests

open Sys2Proof.Machine

/-! ### States the tests start from -/

/-- Disabled and Idle, every value a plain one. -/
def disabledState : State where
  dir := ⟨.input, .input, .input, .input, .input, .input⟩
  lat := ⟨true, true, true, false, false, false⟩
  wk := ⟨false, false, false, none⟩
  sr := 0xE7#8
  bitcnt := 3
  idx := 5
  now := 0
  trace := []
  responses := []
  tx := bufferOf [0x12#8, 0x34#8]
  rx := bufferOf [0xEE#8, 0xEE#8, 0xEE#8]
  inputs := []
  changes := []
  draws := []
  drawn := 0
  fresh := 0

/-- Enabled and Idle. -/
def idleState : State := { disabledState with dir := ⟨.output, .output, .input, .output, .input, .input⟩ }

/-- Enabled and Sending: `SEL` is driven low. -/
def sendingState : State :=
  { disabledState with
    dir := ⟨.output, .output, .output, .output, .input, .input⟩, lat := ⟨false, false, true, true, false, false⟩ }

/-- The variant, with these flags and this count. -/
def counted (gie dr fd : Bool) (c : BitVec 2) : State := { idleState with wk := ⟨fd, dr, gie, some c⟩ }

/-- The default block with these flags, in the order of the register `WK`. -/
def flagged (gie dr fd : Bool) : State := { idleState with wk := ⟨fd, dr, gie, none⟩ }

/-- What a test looks at in the next state of an outcome; nothing when it is no next state. -/
def look {α : Type} (r : Result) (f : State → α) : Option α :=
  match r with
  | .next t => some (f t)
  | .fault _ => none
  | .refused _ => none

/-- The fault of an outcome. -/
def faultOf (r : Result) : Option Fault :=
  match r with
  | .fault x => some x
  | .next _ => none
  | .refused _ => none

/-- The flags as the register `WK` lists them. -/
def flagsOf (t : State) : Bool × Bool × Bool := (t.wk.gie, t.wk.dr, t.wk.fd)

/-! ### WellFormed: a term each check refuses -/

theorem test_wellFormed_sendBuffer_too_long : (Instr.sendBuffer true 2048).wellFormed = false := by decide
theorem test_wellFormed_getBuffer_too_long : (Instr.getBuffer false 2048).wellFormed = false := by decide
theorem test_wellFormed_longest : (Instr.sendBuffer true 2047).wellFormed = true := by decide

/-! ### Decoding: words written out from the formats of R82 and the opcodes of R84 -/

theorem test_decode_init : decode 0b0000000000000000#16 = .ok .init := by decide
theorem test_decode_disable : decode 0b0001000000000000#16 = .ok .disable := by decide
theorem test_decode_suspend : decode 0b0010000000000000#16 = .ok .suspend := by decide
theorem test_decode_resume : decode 0b0011000000000000#16 = .ok .resume := by decide
theorem test_decode_dataReady : decode 0b0100000000000000#16 = .ok .dataReady := by decide
theorem test_decode_fieldPresent : decode 0b0101000000000000#16 = .ok .fieldPresent := by decide
theorem test_decode_setWakeOnField : decode 0b0110000000000001#16 = .ok (.setWakeOnField true) := by decide
theorem test_decode_setWakeOnDataReady : decode 0b0111000000000001#16 = .ok (.setWakeOnDataReady true) := by decide
theorem test_decode_beginSend : decode 0b1000000000000000#16 = .ok .beginSend := by decide
theorem test_decode_endSend : decode 0b1001000000000000#16 = .ok .endSend := by decide
theorem test_decode_sendByte : decode 0b1010000010100101#16 = .ok (.sendByte 0xA5#8) := by decide
theorem test_decode_sendBuffer : decode 0b1011010000000001#16 = .ok (.sendBuffer false 1025) := by decide
theorem test_decode_getByte : decode 0b1100000000000000#16 = .ok .getByte := by decide
theorem test_decode_getBuffer : decode 0b1101100000000010#16 = .ok (.getBuffer true 2) := by decide
theorem test_decode_illegal :
    [decode 0x0800#16, decode 0x4001#16, decode 0x6002#16, decode 0xA100#16, decode 0xE000#16, decode 0xFFFF#16] =
      [.error (.illegalCommand 0x0800#16), .error (.illegalCommand 0x4001#16), .error (.illegalCommand 0x6002#16),
        .error (.illegalCommand 0xA100#16), .error (.illegalCommand 0xE000#16), .error (.illegalCommand 0xFFFF#16)] := by
  decide
theorem test_decodeTableWord : decodeTableWord 16 0xBFFF = some (.sendBuffer true 2047) := by decide
theorem test_decodeTableWord_illegal : decodeTableWord 16 0xE000 = none := by decide

/-! ### The micro-operations (95_test_vectors.md 2.1) -/

/-- M1: the latch is not touched and comes out on the pad. -/
theorem test_M1_pinDir_out :
    let t := pinDir .sel .output disabledState
    t.dir.sel = .output ∧ t.lat.sel = true ∧ pad t ⟨false, false, false, false, false, false⟩ .sel = true ∧
      t.trace = [⟨0, .dir .sel .output⟩] := by decide
/-- M3: the pad goes to the external level, the latch stays. -/
theorem test_M3_pinDir_in :
    let t := pinDir .dat .input sendingState
    t.dir.dat = .input ∧ t.lat.dat = true ∧ pad t ⟨true, true, false, true, true, true⟩ .dat = false := by decide
/-- M6: a write of the level the line has still appends its event. -/
theorem test_M6_pinWrite :
    look (pinWrite .sendByte .clk false sendingState) (fun t => (t.lat, t.trace)) =
      some (sendingState.lat, [⟨0, .drive .clk false⟩]) := by decide
/-- M7, M8: a write to an input line. -/
theorem test_M7_pinWrite_input :
    faultOf (pinWrite .getByte .clk false disabledState) = some (.notEnabled .getByte []) ∧
      faultOf (pinWrite .sendByte .dat true idleState) = some (.notSending .sendByte []) := by decide
/-- M10: an output reads as its latch. -/
theorem test_M10_pinRead_output : (pinRead .sel { sendingState with draws := [true] }).1 = false := by decide
/-- M11: two reads with nothing between them may differ. -/
theorem test_M11_pinRead_twice :
    let r := pinRead .dat { idleState with draws := [true, false] }
    r.1 = true ∧ (pinRead .dat r.2).1 = false := by decide
/-- M12: the event carries the time after the delay. -/
theorem test_M12_delay :
    let t := delay 1 { idleState with now := 7 }
    t.now = 8 ∧ t.trace = [⟨8, .delay 1⟩] := by decide

/-! ### Lifecycle (95_test_vectors.md 2.2) -/

/-- L1. -/
theorem test_L1_init :
    look (exec .init disabledState) (fun t => (t.dir, t.lat, t.now, t.trace.length, t.responses)) =
      some (⟨.output, .output, .input, .output, .input, .input⟩, disabledState.lat, 0, 6, [⟨.ok, 0x00#8⟩]) := by decide
/-- L6. -/
theorem test_L6_init_sending : faultOf (exec .init sendingState) = some (.notIdle .init []) := by decide
/-- L3. -/
theorem test_L3_disable :
    look (exec .disable idleState) (fun t => (t.dir, t.lat, t.trace.length)) =
      some (⟨.input, .input, .input, .input, .input, .input⟩, idleState.lat, 3) := by decide
/-- L6. -/
theorem test_L6_disable_sending : faultOf (exec .disable sendingState) = some (.notIdle .disable []) := by decide

/-! ### Power and queries (95_test_vectors.md 2.3) -/

/-- Q10: allowed while Sending. -/
theorem test_Q10_suspend :
    look (exec .suspend sendingState) (fun t => (t.lat.pwr, t.dir.dat, t.now, t.trace)) =
      some (false, .output, 0, [⟨0, .drive .pwr false⟩]) := by decide
/-- Q11. -/
theorem test_Q11_suspend_disabled : faultOf (exec .suspend disabledState) = some (.notEnabled .suspend []) := by decide
/-- Q2. -/
theorem test_Q2_resume :
    look (exec .resume { idleState with now := 3 }) (fun t => (t.lat.pwr, t.now, t.trace)) =
      some (true, 53, [⟨3, .drive .pwr true⟩, ⟨53, .delay 50⟩]) := by decide
/-- Q11. -/
theorem test_Q11_resume_disabled : faultOf (exec .resume disabledState) = some (.notEnabled .resume []) := by decide
/-- Q5, in Sending. -/
theorem test_Q5_dataReady :
    look (exec .dataReady { sendingState with draws := [true] }) (fun t => (t.trace, t.responses)) =
      some ([⟨0, .sample .irq true⟩], [⟨.ok, 0x01#8⟩]) := by decide
/-- Q6, in Disabled. -/
theorem test_Q6_dataReady :
    look (exec .dataReady { disabledState with draws := [false] }) (fun t => t.responses) = some [⟨.ok, 0x00#8⟩] := by decide
/-- Q7: active low. -/
theorem test_Q7_fieldPresent :
    look (exec .fieldPresent { disabledState with draws := [false] }) (fun t => (t.trace, t.responses)) =
      some ([⟨0, .sample .fd false⟩], [⟨.ok, 0x01#8⟩]) := by decide
/-- Q8. -/
theorem test_Q8_fieldPresent :
    look (exec .fieldPresent { idleState with draws := [true] }) (fun t => t.responses) = some [⟨.ok, 0x00#8⟩] := by decide

/-! ### Wake arming (95_test_vectors.md 2.4) -/

/-- W1, the two columns of `setWakeOnField` on three rows. -/
theorem test_W1_setWakeOnField :
    [flagged false true false, flagged false true true, flagged true false true].map (fun s =>
      (look (exec (.setWakeOnField true) s) flagsOf, look (exec (.setWakeOnField false) s) flagsOf)) =
    [(some (true, true, true), some (false, true, false)), (some (true, true, true), some (false, true, false)),
      (some (true, false, true), some (true, false, false))] := by decide
/-- W2, `setWakeOnField` on four rows, with the count. -/
theorem test_W2_setWakeOnField :
    [(look (exec (.setWakeOnField true) (counted true true false 1)) (fun t => (flagsOf t, t.wk.cnt))),
      (look (exec (.setWakeOnField true) (counted false false true 1)) (fun t => (flagsOf t, t.wk.cnt))),
      (look (exec (.setWakeOnField false) (counted true false true 1)) (fun t => (flagsOf t, t.wk.cnt))),
      (look (exec (.setWakeOnField false) (counted true false false 0)) (fun t => (flagsOf t, t.wk.cnt)))] =
    [some ((true, true, true), some 2), some ((false, false, true), some 1), some ((false, false, false), some 0),
      some ((true, false, false), some 0)] := by decide
/-- W1, the two columns of `setWakeOnDataReady` on three rows. -/
theorem test_W1_setWakeOnDataReady :
    [flagged false false true, flagged false true true, flagged true true false].map (fun s =>
      (look (exec (.setWakeOnDataReady true) s) flagsOf, look (exec (.setWakeOnDataReady false) s) flagsOf)) =
    [(some (true, true, true), some (false, false, true)), (some (true, true, true), some (false, false, true)),
      (some (true, true, false), some (true, false, false))] := by decide
/-- W2, `setWakeOnDataReady` on three rows, with the count. -/
theorem test_W2_setWakeOnDataReady :
    [(look (exec (.setWakeOnDataReady true) (counted true false true 1)) (fun t => (flagsOf t, t.wk.cnt))),
      (look (exec (.setWakeOnDataReady false) (counted true true true 2)) (fun t => (flagsOf t, t.wk.cnt))),
      (look (exec (.setWakeOnDataReady false) (counted true true false 1)) (fun t => (flagsOf t, t.wk.cnt)))] =
    [some ((true, true, true), some 2), some ((true, false, true), some 1), some ((false, false, false), some 0)] := by
  decide
/-- W3: an armed line fires at a change, an unarmed one does not. -/
theorem test_W3_watcher :
    look (step { flagged true false true with inputs := [.pinChange .fd] }) State.trace = some [⟨0, .wake .fd⟩] ∧
      look (step { flagged true false true with inputs := [.pinChange .dr] }) State.trace = some [] ∧
      look (step { flagged false true true with inputs := [.pinChange .fd] }) State.trace = some [] := by decide
/-- R5, R137: a change inside an operation fires between its events. -/
theorem test_watcher_inside_suspend :
    look (exec .suspend { flagged true false true with changes := [[.dr, .fd]] }) State.trace =
      some [⟨0, .wake .fd⟩, ⟨0, .drive .pwr false⟩] := by decide

/-! ### Sending (95_test_vectors.md 2.5) -/

/-- T9: the stale data level comes out. -/
theorem test_T9_beginSend :
    look (exec .beginSend idleState) (fun t => (t.lat, t.dir.dat, t.now)) =
      some (⟨false, true, true, false, false, false⟩, .output, 1) ∧
    look (exec .beginSend idleState) State.trace =
      some [⟨0, .drive .sel false⟩, ⟨1, .delay 1⟩, ⟨1, .dir .dat .output⟩] := by decide
/-- X13, X17. -/
theorem test_X13_beginSend :
    faultOf (exec .beginSend sendingState) = some (.notIdle .beginSend []) ∧
      faultOf (exec .beginSend disabledState) = some (.notEnabled .beginSend []) := by decide
/-- T10. -/
theorem test_T10_endSend :
    look (exec .endSend sendingState) (fun t => (t.lat.sel, t.lat.dat, t.dir.dat, t.now, t.trace)) =
      some (true, true, .input, 2,
        [⟨1, .delay 1⟩, ⟨1, .dir .dat .input⟩, ⟨2, .delay 1⟩, ⟨2, .drive .sel true⟩]) := by decide
/-- X10. -/
theorem test_X10_endSend : faultOf (exec .endSend idleState) = some (.notSending .endSend []) := by decide
/-- T5: the data values, the count of events, the time and the latches. -/
theorem test_T5_sendByte :
    look (exec (.sendByte 0xA5#8) sendingState) (fun t => (datWrites t.trace, t.trace.length, t.now, t.lat)) =
      some ([true, false, true, false, false, true, false, true], 40, 16, ⟨false, true, true, true, false, false⟩) := by
  decide
/-- T5 in full, events 6 to 10. -/
theorem test_T5_sendByte_second_bit :
    look (exec (.sendByte 0xA5#8) sendingState) (fun t => (t.trace.drop 5).take 5) =
      some [⟨2, .drive .clk false⟩, ⟨2, .drive .dat false⟩, ⟨3, .delay 1⟩, ⟨3, .drive .clk true⟩, ⟨4, .delay 1⟩] := by
  decide
set_option maxRecDepth 4000 in
/-- T8: the join between the two bytes. -/
theorem test_T8_sendBuffer :
    look (exec (.sendBuffer true 2) sendingState) (fun t => (t.trace.drop 39).take 3) =
      some [⟨16, .delay 1⟩, ⟨16, .drive .clk false⟩, ⟨16, .drive .dat false⟩] := by decide
/-- X18: forty events, then the violation. -/
theorem test_X18_sendBuffer_short :
    (faultOf (exec (.sendBuffer true 2) { sendingState with tx := bufferOf [0x0F#8] })).map (fun x =>
      match x with
      | .bufferShort .sendBuffer evs => evs.length
      | _ => 0) = some 40 := by decide

/-! ### Receiving (95_test_vectors.md 2.6) -/

/-- T11, from `SR = 0xE7`. -/
theorem test_T11_getByte :
    look (exec .getByte { idleState with draws := [false, false, true, true, true, true, false, false] })
      (fun t => (t.responses, t.lat.clk, t.trace.length, t.now)) = some ([⟨.ok, 0x3C#8⟩], true, 40, 16) := by decide
/-- T11 in full, events 11 to 15. -/
theorem test_T11_getByte_third_bit :
    look (exec .getByte { idleState with draws := [false, false, true, true, true, true, false, false] })
      (fun t => (t.trace.drop 10).take 5) =
      some [⟨4, .drive .clk false⟩, ⟨5, .delay 1⟩, ⟨5, .sample .dat true⟩, ⟨5, .drive .clk true⟩, ⟨6, .delay 1⟩] := by
  decide
set_option maxRecDepth 4000 in
/-- T18: the bytes travel by `MemWrite`, and no other element changes. -/
theorem test_T18_getBuffer :
    look (exec (.getBuffer true 2) { idleState with
      draws := [false, false, true, true, true, true, false, false, true, true, true, true, true, true, true, true] })
      (fun t => (t.rx, t.responses, t.now)) =
      some ([(0, 0x3C#8), (1, 0xFF#8), (2, 0xEE#8)], [⟨.ok, 0x00#8⟩], 32) := by decide
/-- X14, X15, X16. -/
theorem test_X14_receive_in_the_wrong_state :
    faultOf (exec .getByte sendingState) = some (.notIdle .getByte []) ∧
      faultOf (exec (.getBuffer true 1) sendingState) = some (.notIdle .getBuffer []) ∧
      faultOf (exec .getByte disabledState) = some (.notEnabled .getByte []) := by decide

/-! ### Errors (95_test_vectors.md 2.8) -/

/-- X1 to X7: the argument check comes before every state, and the answer records the operation (R181). -/
theorem test_X1_invalidArgument :
    [exec (.sendBuffer true 0) sendingState, exec (.sendBuffer false 3) sendingState, exec (.getBuffer true 0) idleState,
      exec (.getBuffer false 1) idleState, exec (.sendBuffer true 0) idleState, exec (.getBuffer true 0) disabledState,
      exec (.getBuffer true 0) sendingState].map (fun r => look r fun t => (t.responses, t.trace, t.now)) =
    [Op.sendBuffer, .sendBuffer, .getBuffer, .getBuffer, .sendBuffer, .getBuffer, .getBuffer].map
      (fun op => some ([⟨.invalidArgument op, 0x00#8⟩], [], 0)) := by decide
/-- X8, X9: an illegal word changes nothing and is answered with status 2. -/
theorem test_X9_illegalCommand :
    look (step (sendingState.withFetchWord 16 0xA1A5)) id =
      some { sendingState with responses := [⟨.illegalCommand 0xA1A5#16, 0x00#8⟩] } ∧
    look (step (disabledState.withFetchWord 16 0xE000)) id =
      some { disabledState with responses := [⟨.illegalCommand 0xE000#16, 0x00#8⟩] } := by decide

/-! ### The step, and reset -/

/-- A word placed in the reset state is the first command the machine runs. -/
theorem test_first_command_after_reset :
    look (step (State.reset.withFetchWord 16 0x0000)) (fun t => (enabled t, t.responses)) =
      some (true, [⟨.ok, 0x00#8⟩]) := by decide
/-- With no move of the outside the block rests. -/
theorem test_step_at_rest : look (step sendingState) id = some sendingState := by decide
set_option maxRecDepth 4000 in
/-- R211: a reset after 50 micro-operations of a `getBuffer` of two: the first element is stored, the ten samples that were
taken are gone by, and the block is as after reset. -/
theorem test_step_reset_inside_getBuffer :
    look (step { idleState with
      inputs := [.cut 0xD802#16 50], draws := [false, false, true, true, true, true, false, false, true, false, true] })
      (fun t => (t.rx, t.draws, disabled t)) =
      some ([(0, 0x3C#8), (1, 0xEE#8), (2, 0xEE#8)], [true], true) := by decide
/-- R211: a reset while the `sendBuffer` that lacks an element has sent one byte is no violation; a later one is. -/
theorem test_step_reset_before_violation :
    look (step { sendingState with inputs := [.cut 0xB802#16 40], tx := bufferOf [0x0F#8] }) sending = some false ∧
      (faultOf (step { sendingState with inputs := [.cut 0xB802#16 41], tx := bufferOf [0x0F#8] })).isSome = true := by decide
/-- A reset from Sending releases every line. -/
theorem test_step_reset :
    look (step { sendingState with inputs := [.reset], now := 9 }) (fun t => (disabled t, sending t, t.now, t.trace)) =
      some (true, false, 0, []) := by decide

/-! ### The hypotheses of each obligation can be met

One theorem for each obligation that has hypotheses, named after it: a concrete state and operands that meet them, for every
clause. -/

/-- The host issues this word next. -/
def issuing (w : CmdWord) (s : State) : State := { s with inputs := [.command w] }

/-- A wake event lands inside the next operation. -/
def wakened (s : State) : State := { s with wk := ⟨true, false, true, none⟩, changes := [[.fd, .dr]] }

theorem test_hyp_DecodeOfEncode :
    WellFormed .init ∧ WellFormed (.setWakeOnField true) ∧ WellFormed (.sendByte 0xFF#8) ∧
      WellFormed (.sendBuffer true 2047) ∧ WellFormed (.getBuffer false 0) := by decide
theorem test_hyp_EncodeOfDecode :
    decode 0x9000#16 = .ok .endSend ∧ decode 0x7001#16 = .ok (.setWakeOnDataReady true) ∧
      decode 0xA0FF#16 = .ok (.sendByte 0xFF#8) ∧ decode 0xDFFF#16 = .ok (.getBuffer true 2047) := by decide
theorem test_hyp_MaskAndMatchSelect :
    (⟨.sendByte, 0xFF00#16, 0xA000#16⟩ : OpcodeRow) ∈ opcodeMap ∧ 0xA0A5#16 &&& 0xFF00#16 = 0xA000#16 ∧
      0xA1A5#16 &&& 0xFF00#16 ≠ 0xA000#16 ∧ 2047 < 2048 := by decide
theorem test_hyp_IllegalWords :
    (issuing 0xE000#16 idleState).inputs = .command 0xE000#16 :: [] ∧ ∀ i, decode 0xE000#16 ≠ .ok i := by
  refine ⟨rfl, fun i h => ?_⟩
  have e : decode 0xE000#16 = .error (.illegalCommand 0xE000#16) := by decide
  rw [e] at h
  cases h
theorem test_hyp_StepRunsTheCommand :
    (issuing 0xA0A5#16 sendingState).inputs = .command 0xA0A5#16 :: [] ∧
      decode 0xA0A5#16 = .ok (.sendByte 0xA5#8) := by decide
theorem test_hyp_OutsideMovesBetweenCommands :
    idleState.inputs = [] ∧
      ({ idleState with inputs := [.buffers [0x3C#8] []] } : State).inputs = .buffers [0x3C#8] [] :: [] := by decide
theorem test_hyp_WatcherFiresWhenArmed :
    ({ flagged true false true with inputs := [.pinChange .fd] } : State).inputs = .pinChange .fd :: [] ∧
      armed .fd (flagged true false true).wk = true ∧ armed .dr (flagged true false true).wk = false ∧
      armed .fd (flagged false true true).wk = false := by decide
theorem test_hyp_OnlyArmedSourcesFire :
    look (exec .suspend (wakened idleState)) (fun t => t.trace.drop idleState.trace.length) =
      some [⟨0, .wake .fd⟩, ⟨0, .drive .pwr false⟩] := by decide
theorem test_hyp_InitTakesTheBus : disabledState.dir.dat = .input ∧ sendingState.dir.dat = .output := by decide
theorem test_hyp_DisableGivesUpTheBus : idleState.dir.dat = .input ∧ sendingState.dir.dat = .output := by decide
theorem test_hyp_LevelsOutliveDisable : idleState.dir.dat = .input := by decide
theorem test_hyp_SuspendDrivesPowerLow : sendingState.dir.pwr = .output ∧ disabledState.dir.pwr = .input := by decide
theorem test_hyp_ResumeDrivesPowerHighAndWaits : idleState.dir.pwr = .output ∧ disabledState.dir.pwr = .input := by decide
theorem test_hyp_DataReadyReadsTheLine :
    disabledState.dir.irq = .input ∧ idleState.dir.irq = .input ∧ sendingState.dir.irq = .input := by decide
theorem test_hyp_FieldPresentReadsActiveLow :
    disabledState.dir.fd = .input ∧ idleState.dir.fd = .input ∧ sendingState.dir.fd = .input := by decide
theorem test_hyp_SetWakeOnFieldDefault : (flagged false true true).wk.cnt = none := by decide
theorem test_hyp_SetWakeOnDataReadyDefault : (flagged true false false).wk.cnt = none := by decide
theorem test_hyp_CountedWakeOperations :
    ((counted true true false 1).wk.cnt = some 1 ∧ (counted true true false 1).wk.fd = false ∧
      (counted true true false 1).wk.dr = true) ∧
    ((counted true false true 1).wk.cnt = some 1 ∧ (counted true false true 1).wk.fd = true ∧
      (counted true false true 1).wk.dr = false) := by decide
theorem test_hyp_SharedEnableStaysSet :
    let s := issuing 0x6000#16 (flagged true false true)
    s.wk.cnt = none ∧ s.wk.gie = true ∧ nextResets s = false ∧ look (step s) flagsOf = some (true, false, false) := by
  decide
theorem test_hyp_CountedEnableFollowsCount :
    let s := issuing 0x7001#16 (counted true false true 1)
    s.wk.cnt = some 1 ∧ 1 = maskCount s.wk ∧ s.wk.gie = true ∧ nextResets s = false ∧
      look (step s) flagsOf = some (true, true, true) := by decide
theorem test_hyp_WakeFlagsDoNotSteer : setsWake .getByte = false ∧ idleState.changes = [] := by decide
theorem test_hyp_BeginSendTurnsTheBus :
    (idleState.dir.sel = .output ∧ idleState.dir.dat = .input) ∧ disabledState.dir.sel = .input ∧
      (sendingState.dir.sel = .output ∧ sendingState.dir.dat = .output) := by decide
theorem test_hyp_EndSendReleasesTheBus :
    (sendingState.dir.dat = .output ∧ sendingState.dir.sel = .output) ∧ idleState.dir.dat = .input := by decide
theorem test_hyp_EmptyPairSetsSelect : idleState.dir.sel = .output ∧ idleState.dir.dat = .input := by decide
theorem test_hyp_SendByteShiftsOut :
    (sendingState.dir.dat = .output ∧ sendingState.dir.clk = .output) ∧ idleState.dir.dat = .input := by decide
theorem test_hyp_SendByteWaveform : sendingState.dir.dat = .output ∧ sendingState.dir.clk = .output := by decide
theorem test_hyp_SendBufferShiftsOut :
    [0x12#8, 0x34#8] ≠ [] ∧ (∀ k, k < 2 → memRead sendingState.tx k = [0x12#8, 0x34#8][k]?) ∧
      sendingState.dir.dat = .output ∧ sendingState.dir.clk = .output := by decide
theorem test_hyp_SendBufferShortStops :
    [0x12#8, 0x34#8].length < 3 ∧ (∀ k, k < 2 → memRead sendingState.tx k = [0x12#8, 0x34#8][k]?) ∧
      memRead sendingState.tx 2 = none ∧ sendingState.dir.dat = .output ∧ sendingState.dir.clk = .output := by decide
/-- The shortest buffer: no element at all. -/
theorem test_hyp_SendBufferShortStops_empty :
    ([] : List Byte).length < 1 ∧ memRead ({ sendingState with tx := [] } : State).tx 0 = none := by decide
theorem test_hyp_BadArgumentsAreAnswered :
    (true = false ∨ 0 = 0) ∧ (false = false ∨ 3 = 0) ∧
      look (exec (.sendBuffer true 0) idleState) answeredOk = some false := by decide
theorem test_hyp_BufferStateViolations :
    1 ≠ 0 ∧ idleState.dir.dat = .input ∧ disabledState.dir.clk = .input ∧
      (sendingState.dir.clk = .output ∧ sendingState.dir.dat = .output) := by decide
theorem test_hyp_GetByteShiftsIn :
    (idleState.dir.clk = .output ∧ idleState.dir.dat = .input) ∧ disabledState.dir.clk = .input ∧
      (sendingState.dir.clk = .output ∧ sendingState.dir.dat = .output) := by decide
theorem test_hyp_GetBufferShiftsIn :
    2 ≠ 0 ∧ idleState.dir.clk = .output ∧ idleState.dir.dat = .input ∧ 1 < 2 ∧ 2 ≤ 2 := by decide
theorem test_hyp_ShiftLaws : 0 < 8 ∧ 7 < 8 := by decide
/-- Both states, and draws that are the levels the byte was sent as, with one more behind them. -/
theorem test_hyp_LoopBackReturnsTheByte :
    sendingState.dir.dat = .output ∧ sendingState.dir.clk = .output ∧ idleState.dir.clk = .output ∧
      idleState.dir.dat = .input ∧
      look (exec (.sendByte 0xA5#8) sendingState) (fun t => datWrites t.trace ++ [true]) =
        some [true, false, true, false, false, true, false, true, true] := by decide
theorem test_hyp_SendBufferIsRepeatedSendByte :
    [0x12#8] ≠ [] ∧ (∀ k, k < 1 → memRead sendingState.tx k = [0x12#8][k]?) ∧
      sendingState.dir.dat = .output ∧ sendingState.dir.clk = .output := by decide
theorem test_hyp_GetBufferIsRepeatedGetByte :
    2 ≠ 0 ∧ idleState.dir.clk = .output ∧ idleState.dir.dat = .input ∧ 1 < 2 := by decide
theorem test_hyp_ClockIdlesHigh :
    look (exec (.sendByte 0x01#8) sendingState) (fun t => (answeredOk t, t.lat.clk)) = some (true, true) ∧
      look (exec (.sendBuffer false 1) sendingState) (fun t => (answeredOk t, t.lat.clk)) = some (false, false) ∧
      look (exec .endSend sendingState) (fun t => t.lat.clk) = some false := by decide
theorem test_hyp_DurationsAndEventCounts :
    look (exec .resume idleState) answeredOk = some true ∧
      look (exec (.getBuffer true 0) idleState) answeredOk = some false := by decide
theorem test_hyp_PinDirAssertsNoLevel : Line.clk ≠ Line.sel := by decide
theorem test_hyp_PinWriteSetsTheLevel :
    idleState.dir.get .clk = .output ∧ Line.clk ≠ Line.sel ∧ disabledState.dir.sel = .input ∧
      disabledState.dir.clk = .input ∧ disabledState.dir.pwr = .input ∧ idleState.dir.dat = .input := by decide
theorem test_hyp_PinReadSamplesTheLine :
    idleState.dir.get .dat = .input ∧ sendingState.dir.get .dat = .output := by decide
/-- The invariant holds in a state that is not the reset state, Sending and in the variant. -/
theorem test_sending_inv : StateInv { sendingState with wk := ⟨true, false, true, some 1⟩ } where
  irqIn := rfl
  fdIn := rfl
  selClk := rfl
  clkPwr := rfl
  sendingEnabled := fun _ => rfl
  sendingSelLow := fun _ => rfl
  count := fun c h => by cases h; decide
  txWf := by decide
  rxWf := by decide
theorem test_hyp_RegisterViews : StateInv { sendingState with wk := ⟨true, false, true, some 1⟩ } := test_sending_inv
theorem test_hyp_DirectionWriters :
    look (exec .beginSend idleState) (fun t => t.dir.dat) = some .output ∧ idleState.dir.irq = .input ∧
      idleState.dir.fd = .input := by decide
theorem test_hyp_LatchWriters :
    look (exec (.sendByte 0x00#8) sendingState) (fun t => decide (t.lat.dat ≠ sendingState.lat.dat)) = some true := by decide
theorem test_hyp_WakeFlagAndBufferWriters :
    look (exec .getByte idleState) (fun t => t.rx) = some idleState.rx ∧ setsWake .getByte = false ∧
      ∀ p len, Instr.getByte ≠ .getBuffer p len := by
  refine ⟨by decide, by decide, fun p len h => ?_⟩
  cases h
/-- A state with the invariant, an operation that is a violation in it and one that is none. -/
theorem test_hyp_CompletesUnlessViolation :
    StateInv { sendingState with wk := ⟨true, false, true, some 1⟩ } ∧
      (faultOf (exec .init { sendingState with wk := ⟨true, false, true, some 1⟩ })).isSome = true ∧
      (faultOf (exec .endSend { sendingState with wk := ⟨true, false, true, some 1⟩ })).isSome = false :=
  ⟨test_sending_inv, by decide, by decide⟩
theorem test_hyp_ResetFromAnyState :
    ({ sendingState with inputs := [.reset] } : State).inputs = .reset :: [] := by decide
/-- A cut inside a `getBuffer`, one of a `sendBuffer` at the element that is missing, and one during an illegal word. -/
theorem test_hyp_ResetCutsAnOperationShort :
    ({ idleState with inputs := [.cut 0xD801#16 40] } : State).inputs = .cut 0xD801#16 40 :: [] ∧
      decode 0xD801#16 = .ok (.getBuffer true 1) ∧ (microOps (.getBuffer true 1) idleState).length = 40 ∧
      decode 0xB802#16 = .ok (.sendBuffer true 2) ∧
      (microOps (.sendBuffer true 2) { sendingState with tx := bufferOf [0x0F#8] }).length = 40 := by decide
/-- A cut before the first micro-operation, in a state in which the operation is a violation. -/
theorem test_hyp_ResetCutsAnOperationShort_at_once :
    decode 0xC000#16 = .ok .getByte ∧ (microOps .getByte sendingState).length = 0 := by decide
theorem test_hyp_ResetCutsAnOperationShort_illegal : ∀ i, decode 0xFFFF#16 ≠ .ok i := by
  intro i h
  have e : decode 0xFFFF#16 = .error (.illegalCommand 0xFFFF#16) := by decide
  rw [e] at h
  cases h
/-- One micro-operation more than the operation has, where it completes and where it is a violation. -/
theorem test_hyp_ResetFindsAnEndedOperation :
    ({ idleState with inputs := [.cut 0xC000#16 41] } : State).inputs = .cut 0xC000#16 41 :: [] ∧
      decode 0xC000#16 = .ok .getByte ∧ (microOps .getByte idleState).length < 41 ∧
      look (exec .getByte idleState) answeredOk = some true ∧ (microOps .getByte sendingState).length < 1 ∧
      faultOf (exec .getByte sendingState) = some (.notIdle .getByte []) := by decide
theorem test_hyp_StepKeepsInvariant :
    StateInv { sendingState with wk := ⟨true, false, true, some 1⟩ } ∧
      (look (step { sendingState with wk := ⟨true, false, true, some 1⟩ }) id).isSome = true :=
  ⟨test_sending_inv, by decide⟩
theorem test_hyp_StepKeepsTimeInvariant :
    let s := { issuing 0x3000#16 idleState with now := 50, trace := [⟨0, .drive .pwr true⟩, ⟨50, .delay 50⟩] }
    TimeInv s ∧ look (step s) (fun t => t.now) = some 100 :=
  ⟨⟨by decide, by decide, by decide⟩, by decide⟩

end Sys2Proof.Tests
end

/-!
PROOFS. What each operation that completes leaves, once for all of them: `Completes s i t` lists the completing branches
of the fourteen operations with their whole next state, and `exec_eq_next` says that these are exactly the next states of
`exec`. Later proofs take a completed operation apart by cases on `Completes` and do not unfold an operation again.
-/

namespace Sys2Proof.Machine

/-! ### Which operation completes how -/

/-- A `PinRead` of any line: the level found is `v`, one event, and `k` levels of the environment are used up (R102). -/
def Samples (l : Line) (s : State) (v : Level) (k : Nat) : Prop :=
  pinRead l s = (v, withEvents [⟨s.now, .sample l v⟩] (afterDraws k s))

/-- Operation `i`, issued in state `s`, completes in a state: one constructor for each completing branch of an operation,
with the whole next state (R120 to R156, R181). -/
inductive Completes (s : State) : Instr → State → Prop
  | init (hd : s.dir.dat = .input) :
      Completes s .init (respond .ok 0#8 { withEvents (initEvents s.now) s with
        dir := ⟨.output, .output, .input, .output, .input, .input⟩ })
  | disable (hd : s.dir.dat = .input) :
      Completes s .disable (respond .ok 0#8 { withEvents (disableEvents s.now) s with
        dir := { s.dir with sel := .input, clk := .input, pwr := .input } })
  | suspend (hp : s.dir.pwr = .output) :
      Completes s .suspend (respond .ok 0#8 { withEvents [⟨s.now, .drive .pwr false⟩] s with
        lat := { s.lat with pwr := false } })
  | resume (hp : s.dir.pwr = .output) :
      Completes s .resume (respond .ok 0#8 { withEvents [⟨s.now, .drive .pwr true⟩, ⟨s.now + 50, .delay 50⟩] s with
        lat := { s.lat with pwr := true }, now := s.now + 50 })
  | dataReady (v : Level) (k : Nat) (hv : Samples .irq s v k) :
      Completes s .dataReady (respond .ok (if v then 0x01#8 else 0x00#8)
        (withEvents [⟨s.now, .sample .irq v⟩] (afterDraws k s)))
  | fieldPresent (v : Level) (k : Nat) (hv : Samples .fd s v k) :
      Completes s .fieldPresent (respond .ok (if !v then 0x01#8 else 0x00#8)
        (withEvents [⟨s.now, .sample .fd v⟩] (afterDraws k s)))
  | setWakeOnField (e : Bool) :
      Completes s (.setWakeOnField e) (respond .ok 0#8 { s with wk := setWake .fd e s.wk })
  | setWakeOnDataReady (e : Bool) :
      Completes s (.setWakeOnDataReady e) (respond .ok 0#8 { s with wk := setWake .dr e s.wk })
  | beginSend (hs : s.dir.sel = .output) (hd : s.dir.dat = .input) :
      Completes s .beginSend (respond .ok 0#8 { withEvents (beginSendEvents s.now) s with
        lat := { s.lat with sel := false }, dir := { s.dir with dat := .output }, now := s.now + 1 })
  | endSend (hd : s.dir.dat = .output) (hs : s.dir.sel = .output) :
      Completes s .endSend (respond .ok 0#8 { withEvents (endSendEvents s.now) s with
        lat := { s.lat with sel := true }, dir := { s.dir with dat := .input }, now := s.now + 2 })
  | sendByte (v : Byte) (hd : s.dir.dat = .output) (hc : s.dir.clk = .output) :
      Completes s (.sendByte v) (respond .ok 0#8 (releaseByteRegs { withEvents (sendByteEvents s.now v) s with
        lat := { s.lat with clk := true, dat := v.getLsbD 0 }, now := s.now + 16 }))
  | sendBuffer (v : Byte) (bytes : List Byte) (len : Nat) (hl : (v :: bytes).length = len)
      (hm : ∀ k, k < (v :: bytes).length → memRead s.tx k = (v :: bytes)[k]?)
      (hd : s.dir.dat = .output) (hc : s.dir.clk = .output) :
      Completes s (.sendBuffer true len) (respond .ok 0#8 (releaseBufferRegs
        { withEvents (sendBufferEvents s.now (v :: bytes)) s with
          lat := { s.lat with clk := true, dat := ((v :: bytes).getLastD v).getLsbD 0 }
          now := s.now + 16 * len }))
  | sendBufferBadArgument (p : Bool) (len : Nat) (ha : p = false ∨ len = 0) :
      Completes s (.sendBuffer p len) (respond (.invalidArgument .sendBuffer) 0#8 s)
  | getByte (hc : s.dir.clk = .output) (hd : s.dir.dat = .input) :
      Completes s .getByte (respond .ok (byteOf (levelAt s)) (releaseByteRegs
        { withEvents (getByteEvents s.now (levelAt s)) (afterDraws 8 s) with
          lat := { s.lat with clk := true }, now := s.now + 16 }))
  | getBuffer (len : Nat) (hl : len ≠ 0) (hc : s.dir.clk = .output) (hd : s.dir.dat = .input) :
      Completes s (.getBuffer true len) (respond .ok 0#8 (releaseBufferRegs
        { withEvents (getBufferEvents s.now (levelAt s) len) (afterDraws (8 * len) s) with
          lat := { s.lat with clk := true }, now := s.now + 16 * len
          rx := storeBytes s.rx 0 (levelAt s) len }))
  | getBufferBadArgument (p : Bool) (len : Nat) (ha : p = false ∨ len = 0) :
      Completes s (.getBuffer p len) (respond (.invalidArgument .getBuffer) 0#8 s)

/-- A direction is one of two. -/
theorem dir_ne_output {d : Dir} : d ≠ .output ↔ d = .input := by cases d <;> decide

/-- A `PinRead` always finds some level (R102). -/
theorem exists_samples (l : Line) (s : State) : ∃ v k, Samples l s v k := by
  cases hd : s.dir.get l with
  | output => exact ⟨s.lat.get l, 0, by rw [Samples, pinRead_output l s hd, afterDraws_zero]⟩
  | input => exact ⟨levelAt s 0, 1, pinRead_input l s hd⟩

/-- The argument check of a buffer operation fails for an absent buffer and for the length 0 (R181). -/
theorem bufferArgOk_eq_false {p : Bool} {len : Nat} : bufferArgOk p len = false ↔ p = false ∨ len = 0 := by
  cases p <;> simp [bufferArgOk]

/-- The argument check of a buffer operation (R181). -/
theorem bufferArgOk_eq_true {p : Bool} {len : Nat} : bufferArgOk p len = true ↔ p = true ∧ len ≠ 0 := by
  simp [bufferArgOk]

/-! ### The runs that complete -/

theorem exec_init_of_idle {s : State} (hd : s.dir.dat = .input) :
    exec .init s = .next (respond .ok 0#8 { withEvents (initEvents s.now) s with
      dir := ⟨.output, .output, .input, .output, .input, .input⟩ }) := by
  simp [exec, execInit, hd, pinDir_eq, complete, withEvents, initEvents, Lines.set]

theorem exec_disable_of_idle {s : State} (hd : s.dir.dat = .input) :
    exec .disable s = .next (respond .ok 0#8 { withEvents (disableEvents s.now) s with
      dir := { s.dir with sel := .input, clk := .input, pwr := .input } }) := by
  simp [exec, execDisable, hd, pinDir_eq, complete, withEvents, disableEvents, Lines.set]

theorem exec_suspend_of_driven {s : State} (hp : s.dir.pwr = .output) :
    exec .suspend s = .next (respond .ok 0#8 { withEvents [⟨s.now, .drive .pwr false⟩] s with
      lat := { s.lat with pwr := false } }) := by
  simp [exec, execSuspend, hp, pinWrite_output, Lines.get, complete, Lines.set]

theorem exec_resume_of_driven {s : State} (hp : s.dir.pwr = .output) :
    exec .resume s = .next (respond .ok 0#8
      { withEvents [⟨s.now, .drive .pwr true⟩, ⟨s.now + 50, .delay 50⟩] s with
        lat := { s.lat with pwr := true }, now := s.now + 50 }) := by
  simp [exec, execResume, hp, pinWrite_output, delay_eq, Lines.get, complete, Lines.set, Config.tPowerup,
    withEvents, ← List.drop_one]

theorem exec_dataReady_of_samples {s : State} {v : Level} {k : Nat} (hv : Samples .irq s v k) :
    exec .dataReady s = .next (respond .ok (if v then 0x01#8 else 0x00#8)
      (withEvents [⟨s.now, .sample .irq v⟩] (afterDraws k s))) := by
  rw [Samples] at hv
  simp only [exec, execDataReady, hv, completeBool, completeWith]

theorem exec_fieldPresent_of_samples {s : State} {v : Level} {k : Nat} (hv : Samples .fd s v k) :
    exec .fieldPresent s = .next (respond .ok (if !v then 0x01#8 else 0x00#8)
      (withEvents [⟨s.now, .sample .fd v⟩] (afterDraws k s))) := by
  rw [Samples] at hv
  simp only [exec, execFieldPresent, hv, completeBool, completeWith]

theorem exec_beginSend_of_idle {s : State} (hs : s.dir.sel = .output) (hd : s.dir.dat = .input) :
    exec .beginSend s = .next (respond .ok 0#8 { withEvents (beginSendEvents s.now) s with
      lat := { s.lat with sel := false }, dir := { s.dir with dat := .output }, now := s.now + 1 }) := by
  simp [exec, execBeginSend, hs, hd, pinWrite_output, delay_eq, pinDir_eq, Lines.get, Lines.set, complete,
    Config.tSettle, withEvents, beginSendEvents]

/-- What `endSend` does before it raises `SEL` (R152). -/
theorem endSend_settle (s : State) :
    delay Config.tSettle (pinDir .dat .input (delay Config.tSettle s)) =
      { withEvents [⟨s.now + 1, .delay 1⟩, ⟨s.now + 1, .dir .dat .input⟩, ⟨s.now + 2, .delay 1⟩] s with
        dir := { s.dir with dat := .input }, now := s.now + 2 } := by
  simp [delay_eq, pinDir_eq, Lines.set, Config.tSettle, withEvents]

theorem exec_endSend_of_sending {s : State} (hd : s.dir.dat = .output) (hs : s.dir.sel = .output) :
    exec .endSend s = .next (respond .ok 0#8 { withEvents (endSendEvents s.now) s with
      lat := { s.lat with sel := true }, dir := { s.dir with dat := .input }, now := s.now + 2 }) := by
  simp only [exec, execEndSend, hd, if_true, endSend_settle]
  rw [pinWrite_output]
  · simp [complete, Lines.set, withEvents, endSendEvents]
  · exact hs

theorem exec_sendByte_of_sending {s : State} (v : Byte) (hd : s.dir.dat = .output) (hc : s.dir.clk = .output) :
    exec (.sendByte v) s = .next (respond .ok 0#8 (releaseByteRegs { withEvents (sendByteEvents s.now v) s with
      lat := { s.lat with clk := true, dat := v.getLsbD 0 }, now := s.now + 16 })) := by
  simp [exec, execSendByte, hd, shiftOutByte_eq _ _ _ hc hd, complete, releaseByteRegs]

theorem exec_sendBuffer_of_sending {s : State} (v : Byte) (bytes : List Byte)
    (hm : ∀ k, k < (v :: bytes).length → memRead s.tx k = (v :: bytes)[k]?)
    (hd : s.dir.dat = .output) (hc : s.dir.clk = .output) :
    exec (.sendBuffer true (v :: bytes).length) s = .next (respond .ok 0#8 (releaseBufferRegs
      { withEvents (sendBufferEvents s.now (v :: bytes)) s with
        lat := { s.lat with clk := true, dat := ((v :: bytes).getLastD v).getLsbD 0 }
        now := s.now + 16 * (v :: bytes).length })) := by
  have hr := repeatStep_sendElement v bytes { s with idx := 0 } hc hd (by simpa using hm)
  have ha : bufferArgOk true (v :: bytes).length = true := bufferArgOk_eq_true.mpr ⟨rfl, by simp⟩
  simp only [exec, execSendBuffer, ha, hd, if_true, hr, andNext_next, complete]
  simp [releaseBufferRegs, withEvents]

theorem exec_sendBuffer_of_badArgument {p : Bool} {len : Nat} (s : State) (ha : p = false ∨ len = 0) :
    exec (.sendBuffer p len) s = .next (respond (.invalidArgument .sendBuffer) 0#8 s) := by
  simp [exec, execSendBuffer, bufferArgOk_eq_false.mpr ha, raiseInvalidArgument]

theorem exec_getByte_of_idle {s : State} (hc : s.dir.clk = .output) (hd : s.dir.dat = .input) :
    exec .getByte s = .next (respond .ok (byteOf (levelAt s)) (releaseByteRegs
      { withEvents (getByteEvents s.now (levelAt s)) (afterDraws 8 s) with
        lat := { s.lat with clk := true }, now := s.now + 16 })) := by
  simp [exec, execGetByte, hd, hc, shiftInByte_eq _ _ hc hd, completeWith, releaseByteRegs]

theorem exec_getBuffer_of_idle {s : State} {len : Nat} (hl : len ≠ 0) (hc : s.dir.clk = .output)
    (hd : s.dir.dat = .input) :
    exec (.getBuffer true len) s = .next (respond .ok 0#8 (releaseBufferRegs
      { withEvents (getBufferEvents s.now (levelAt s) len) (afterDraws (8 * len) s) with
        lat := { s.lat with clk := true }, now := s.now + 16 * len
        rx := storeBytes s.rx 0 (levelAt s) len })) := by
  obtain ⟨n, rfl⟩ := Nat.exists_eq_succ_of_ne_zero hl
  have ha : bufferArgOk true (n + 1) = true := bufferArgOk_eq_true.mpr ⟨rfl, hl⟩
  simp only [exec, execGetBuffer, Nat.succ_eq_add_one, ha, hc, hd, if_true]
  rw [repeatStep_getElement n { s with idx := 0 } hc hd]
  rfl

theorem exec_getBuffer_of_badArgument {p : Bool} {len : Nat} (s : State) (ha : p = false ∨ len = 0) :
    exec (.getBuffer p len) s = .next (respond (.invalidArgument .getBuffer) 0#8 s) := by
  simp [exec, execGetBuffer, bufferArgOk_eq_false.mpr ha, raiseInvalidArgument]

/-- Every branch of `Completes` is a run of `exec`. -/
theorem Completes.exec_eq {i : Instr} {s t : State} (h : Completes s i t) : exec i s = .next t := by
  cases h with
  | init hd => exact exec_init_of_idle hd
  | disable hd => exact exec_disable_of_idle hd
  | suspend hp => exact exec_suspend_of_driven hp
  | resume hp => exact exec_resume_of_driven hp
  | dataReady v k hv => exact exec_dataReady_of_samples hv
  | fieldPresent v k hv => exact exec_fieldPresent_of_samples hv
  | setWakeOnField e => rfl
  | setWakeOnDataReady e => rfl
  | beginSend hs hd => exact exec_beginSend_of_idle hs hd
  | endSend hd hs => exact exec_endSend_of_sending hd hs
  | sendByte v hd hc => exact exec_sendByte_of_sending v hd hc
  | sendBuffer v bytes len hl hm hd hc => subst hl; exact exec_sendBuffer_of_sending v bytes hm hd hc
  | sendBufferBadArgument p len ha => exact exec_sendBuffer_of_badArgument s ha
  | getByte hc hd => exact exec_getByte_of_idle hc hd
  | getBuffer len hl hc hd => exact exec_getBuffer_of_idle hl hc hd
  | getBufferBadArgument p len ha => exact exec_getBuffer_of_badArgument s ha

/-! ### No other run completes -/

/-- The branch that `exec` takes is the one whose run is known, so what it answers is that branch's state. -/
theorem Completes.of_exec_eq {i : Instr} {s t u : State} (hu : Completes s i u) (h : exec i s = .next t) :
    Completes s i t := by
  rw [hu.exec_eq] at h
  cases h
  exact hu

theorem init_completes {s t : State} (h : exec .init s = .next t) : Completes s .init t := by
  cases hd : s.dir.dat with
  | input => exact (Completes.init hd).of_exec_eq h
  | output => simp [exec, execInit, hd] at h

theorem disable_completes {s t : State} (h : exec .disable s = .next t) : Completes s .disable t := by
  cases hd : s.dir.dat with
  | input => exact (Completes.disable hd).of_exec_eq h
  | output => simp [exec, execDisable, hd] at h

theorem suspend_completes {s t : State} (h : exec .suspend s = .next t) : Completes s .suspend t := by
  cases hp : s.dir.pwr with
  | output => exact (Completes.suspend hp).of_exec_eq h
  | input => simp [exec, execSuspend, hp] at h

theorem resume_completes {s t : State} (h : exec .resume s = .next t) : Completes s .resume t := by
  cases hp : s.dir.pwr with
  | output => exact (Completes.resume hp).of_exec_eq h
  | input => simp [exec, execResume, hp] at h

theorem beginSend_completes {s t : State} (h : exec .beginSend s = .next t) : Completes s .beginSend t := by
  cases hs : s.dir.sel with
  | input => simp [exec, execBeginSend, hs] at h
  | output =>
    cases hd : s.dir.dat with
    | input => exact (Completes.beginSend hs hd).of_exec_eq h
    | output => simp [exec, execBeginSend, hs, hd] at h

theorem endSend_completes {s t : State} (h : exec .endSend s = .next t) : Completes s .endSend t := by
  cases hd : s.dir.dat with
  | input => simp [exec, execEndSend, hd] at h
  | output =>
    cases hs : s.dir.sel with
    | output => exact (Completes.endSend hd hs).of_exec_eq h
    | input =>
      simp only [exec, execEndSend, hd, if_true, endSend_settle] at h
      rw [pinWrite_input] at h
      · cases h
      · exact hs

theorem sendByte_completes {v : Byte} {s t : State} (h : exec (.sendByte v) s = .next t) :
    Completes s (.sendByte v) t := by
  cases hd : s.dir.dat with
  | input => simp [exec, execSendByte, hd] at h
  | output =>
    have hrun := h
    simp only [exec, execSendByte, hd, if_true, andNext_eq_next] at hrun
    obtain ⟨u, hu, -⟩ := hrun
    exact (Completes.sendByte v hd (shiftOutByte_eq_next hu).1).of_exec_eq h

theorem sendBuffer_completes {p : Bool} {len : Nat} {s t : State} (h : exec (.sendBuffer p len) s = .next t) :
    Completes s (.sendBuffer p len) t := by
  cases ha : bufferArgOk p len with
  | false => exact (Completes.sendBufferBadArgument p len (bufferArgOk_eq_false.mp ha)).of_exec_eq h
  | true =>
    obtain ⟨rfl, hn⟩ := bufferArgOk_eq_true.mp ha
    cases hd : s.dir.dat with
    | input => simp [exec, execSendBuffer, ha, hd] at h
    | output =>
      have hrun := h
      simp only [exec, execSendBuffer, ha, hd, if_true, andNext_eq_next] at hrun
      obtain ⟨u, hu, -⟩ := hrun
      obtain ⟨bytes, hl, hm, hcd⟩ := repeatStep_sendElement_eq_next hu
      cases bytes with
      | nil => exact absurd hl.symm hn
      | cons v rest =>
        refine (Completes.sendBuffer v rest len hl (fun k hk => ?_) hd (hcd hn).1).of_exec_eq h
        simpa using hm k (hl ▸ hk)

theorem getByte_completes {s t : State} (h : exec .getByte s = .next t) : Completes s .getByte t := by
  cases hc : s.dir.clk with
  | input => simp [exec, execGetByte, hc] at h
  | output =>
    cases hd : s.dir.dat with
    | input => exact (Completes.getByte hc hd).of_exec_eq h
    | output => simp [exec, execGetByte, hc, hd] at h

/-- A `getBuffer` with good arguments that finds `CLK` an input or `DAT` an output stops before its first
micro-operation (R183). -/
theorem exec_getBuffer_fault {s : State} {len : Nat} (hl : len ≠ 0)
    (h : ¬(s.dir.clk = .output ∧ s.dir.dat = .input)) :
    ∃ f, exec (.getBuffer true len) s = .fault f ∧ traceOf (.fault f) = s.trace := by
  have ha : bufferArgOk true len = true := bufferArgOk_eq_true.mpr ⟨rfl, hl⟩
  by_cases hc : s.dir.clk = .output
  · have hd : s.dir.dat ≠ .input := fun hd => h ⟨hc, hd⟩
    exact ⟨.notIdle .getBuffer s.trace, by simp [exec, execGetBuffer, ha, hc, hd], rfl⟩
  · exact ⟨.notEnabled .getBuffer s.trace, by simp [exec, execGetBuffer, ha, hc], rfl⟩

theorem getBuffer_completes {p : Bool} {len : Nat} {s t : State} (h : exec (.getBuffer p len) s = .next t) :
    Completes s (.getBuffer p len) t := by
  cases ha : bufferArgOk p len with
  | false => exact (Completes.getBufferBadArgument p len (bufferArgOk_eq_false.mp ha)).of_exec_eq h
  | true =>
    obtain ⟨rfl, hn⟩ := bufferArgOk_eq_true.mp ha
    by_cases hcd : s.dir.clk = .output ∧ s.dir.dat = .input
    · exact (Completes.getBuffer len hn hcd.1 hcd.2).of_exec_eq h
    · obtain ⟨f, hf, -⟩ := exec_getBuffer_fault hn hcd
      rw [hf] at h
      cases h

/-- The next states of `exec` are those of `Completes`. -/
theorem exec_eq_next {i : Instr} {s t : State} : exec i s = .next t ↔ Completes s i t := by
  refine ⟨fun h => ?_, Completes.exec_eq⟩
  cases i with
  | init => exact init_completes h
  | disable => exact disable_completes h
  | suspend => exact suspend_completes h
  | resume => exact resume_completes h
  | dataReady =>
    obtain ⟨v, k, hv⟩ := exists_samples .irq s
    exact (Completes.dataReady v k hv).of_exec_eq h
  | fieldPresent =>
    obtain ⟨v, k, hv⟩ := exists_samples .fd s
    exact (Completes.fieldPresent v k hv).of_exec_eq h
  | setWakeOnField e => exact (Completes.setWakeOnField e).of_exec_eq h
  | setWakeOnDataReady e => exact (Completes.setWakeOnDataReady e).of_exec_eq h
  | beginSend => exact beginSend_completes h
  | endSend => exact endSend_completes h
  | sendByte v => exact sendByte_completes h
  | sendBuffer p len => exact sendBuffer_completes h
  | getByte => exact getByte_completes h
  | getBuffer p len => exact getBuffer_completes h

end Sys2Proof.Machine

/-!
PROOFS. What a completed operation leaves in each part of the state (10_state.md R21, R22, R43, R53), and the events it
appends (R36, R37): a run of the block's own events from `NOW` before to `NOW` after, with the wake events of armed
sources woven in.
-/

namespace Sys2Proof.Machine

/-! ### Writers of the wake flags and the buffers -/

/-- The wake flags after an operation: as before, or what a wake operation makes of them (R43). -/
theorem Completes.wk_cases {i : Instr} {s t : State} (h : Completes s i t) :
    t.wk = s.wk ∨ setsWake i = true ∧ ∃ src e, t.wk = setWake src e s.wk := by
  cases h with
  | setWakeOnField e => exact .inr ⟨rfl, .fd, e, rfl⟩
  | setWakeOnDataReady e => exact .inr ⟨rfl, .dr, e, rfl⟩
  | _ => exact .inl rfl

/-- No operation writes the transmit buffer (R53). -/
theorem Completes.tx_eq {i : Instr} {s t : State} (h : Completes s i t) : t.tx = s.tx := by cases h <;> rfl

/-- No operation takes a move of the outside world (R91). -/
theorem Completes.inputs_eq {i : Instr} {s t : State} (h : Completes s i t) : t.inputs = s.inputs := by
  cases h <;> rfl

/-- The receive buffer after an operation: as before, or with the bytes of a `getBuffer` stored from element 0 (R156). -/
theorem Completes.rx_cases {i : Instr} {s t : State} (h : Completes s i t) :
    t.rx = s.rx ∨ ∃ len, i = .getBuffer true len ∧ t.rx = storeBytes s.rx 0 (levelAt s) len := by
  cases h with
  | getBuffer len hl hc hd => exact .inr ⟨len, rfl, rfl⟩
  | _ => exact .inl rfl

/-- Settles O47: each part is read off the completing branches. -/
theorem wakeFlagAndBufferWriters : Obligations.WakeFlagAndBufferWriters := by
  intro i s t h
  have hc := exec_eq_next.mp h
  refine ⟨fun hw => ?_, hc.tx_eq, fun hg => ?_, hc.inputs_eq⟩
  · obtain hk | ⟨hset, -⟩ := hc.wk_cases
    · exact hk
    · simp [hw] at hset
  · obtain hk | ⟨len, hi, -⟩ := hc.rx_cases
    · exact hk
    · exact absurd hi (hg true len)

/-! ### Writers of the directions and the latches -/

/-- Settles O45: each completing branch names the directions it writes. -/
theorem directionWriters : Obligations.DirectionWriters := by
  intro i s t h
  cases exec_eq_next.mp h <;> simp

/-- Settles O46: each completing branch names the latches it writes. -/
theorem latchWriters : Obligations.LatchWriters := by
  intro i s t h
  cases exec_eq_next.mp h <;> simp

/-! ### The events of an operation -/

/-- The events are the block's own, one after the other in time: the first starts at `a`, each next one when the one
before it is over, and the last is over at `b` (R36, R37, R63). -/
def OwnRun : Nat → List Stamped → Nat → Prop
  | a, [], b => a = b
  | a, e :: es, b => isWake e = false ∧ startTime e = a ∧ e.time = a + delaySum [e] ∧ OwnRun e.time es b

theorem OwnRun.append {a b c : Nat} {x y : List Stamped} (hx : OwnRun a x b) (hy : OwnRun b y c) :
    OwnRun a (x ++ y) c := by
  induction x generalizing a with
  | nil => cases hx; exact hy
  | cons e es ih =>
    obtain ⟨hw, hst, ht, hes⟩ := hx
    exact ⟨hw, hst, ht, ih hes⟩

/-- Runs of two microseconds each, one after the other. -/
theorem ownRun_flatMap_range {a : Nat} {f : Nat → List Stamped}
    (hf : ∀ j, OwnRun (a + 2 * j) (f j) (a + 2 * (j + 1))) (n : Nat) :
    OwnRun a ((List.range n).flatMap f) (a + 2 * n) := by
  induction n with
  | zero => exact rfl
  | succ n ih =>
    rw [List.range_succ, List.flatMap_append, List.flatMap_singleton]
    exact ih.append (hf n)

theorem ownRun_bitOutEvents (a : Nat) (b : Level) : OwnRun a (bitOutEvents a b) (a + 2) := by
  simp [OwnRun, bitOutEvents, isWake, startTime, delaySum]

theorem ownRun_bitInEvents (a : Nat) (b : Level) : OwnRun a (bitInEvents a b) (a + 2) := by
  simp [OwnRun, bitInEvents, isWake, startTime, delaySum]

theorem ownRun_sendByteEvents (a : Nat) (v : Byte) : OwnRun a (sendByteEvents a v) (a + 16) :=
  ownRun_flatMap_range (fun j => ownRun_bitOutEvents (a + 2 * j) _) 8

theorem ownRun_getByteEvents (a : Nat) (bits : Nat → Level) : OwnRun a (getByteEvents a bits) (a + 16) :=
  ownRun_flatMap_range (fun j => ownRun_bitInEvents (a + 2 * j) _) 8

theorem ownRun_sendBufferEvents (a : Nat) (bytes : List Byte) :
    OwnRun a (sendBufferEvents a bytes) (a + 16 * bytes.length) := by
  induction bytes generalizing a with
  | nil => exact rfl
  | cons v rest ih =>
    have hrest := ih (a + 16)
    rw [show a + 16 + 16 * rest.length = a + 16 * (v :: rest).length by simp; omega] at hrest
    exact (ownRun_sendByteEvents a v).append hrest

theorem ownRun_getBufferEvents (a : Nat) (bits : Nat → Level) (n : Nat) :
    OwnRun a (getBufferEvents a bits n) (a + 16 * n) := by
  induction n generalizing a bits with
  | zero => exact rfl
  | succ n ih =>
    have hrest := ih (a + 16) fun j => bits (8 + j)
    rw [show a + 16 + 16 * n = a + 16 * (n + 1) by omega] at hrest
    exact (ownRun_getByteEvents a bits).append hrest

/-- What an operation appends to `TRACE`: a run of its own events from `NOW` before it to `NOW` after it, with the wake
events of the environment's changes in between (R37, R137). -/
theorem Completes.trace_eq {i : Instr} {s t : State} (h : Completes s i t) :
    ∃ evs, OwnRun s.now evs t.now ∧ t.trace = s.trace ++ weave s.wk s.changes evs := by
  cases h with
  | init => exact ⟨initEvents s.now, by simp [OwnRun, initEvents, isWake, startTime, delaySum], rfl⟩
  | disable => exact ⟨disableEvents s.now, by simp [OwnRun, disableEvents, isWake, startTime, delaySum], rfl⟩
  | suspend => exact ⟨_, by simp [OwnRun, isWake, startTime, delaySum], rfl⟩
  | resume => exact ⟨_, by simp [OwnRun, isWake, startTime, delaySum], rfl⟩
  | dataReady => exact ⟨_, by simp [OwnRun, isWake, startTime, delaySum], rfl⟩
  | fieldPresent => exact ⟨_, by simp [OwnRun, isWake, startTime, delaySum], rfl⟩
  | beginSend => exact ⟨beginSendEvents s.now, by simp [OwnRun, beginSendEvents, isWake, startTime, delaySum], rfl⟩
  | endSend => exact ⟨endSendEvents s.now, by simp [OwnRun, endSendEvents, isWake, startTime, delaySum], rfl⟩
  | sendByte v => exact ⟨_, ownRun_sendByteEvents s.now v, rfl⟩
  | sendBuffer v bytes len hl => exact ⟨_, hl ▸ ownRun_sendBufferEvents s.now (v :: bytes), rfl⟩
  | getByte => exact ⟨_, ownRun_getByteEvents s.now (levelAt s), rfl⟩
  | getBuffer len => exact ⟨_, ownRun_getBufferEvents s.now (levelAt s) len, rfl⟩
  | _ => exact ⟨[], rfl, by simp⟩

/-! ### Wake events -/

/-- A wake event due is one of an armed source, at the time given. -/
theorem mem_wakesDue {t : Nat} {w : WakeFlags} {due : List WakeSource} {e : Stamped} (h : e ∈ wakesDue t w due) :
    e.time = t ∧ ∃ src, armed src w = true ∧ e.event = .wake src := by
  simp only [wakesDue, List.mem_map, List.mem_filter] at h
  obtain ⟨src, ⟨-, ha⟩, rfl⟩ := h
  exact ⟨rfl, src, ha, rfl⟩

/-- Among woven events, a wake event is of an armed source: the block's own events are no wake events. -/
theorem armed_of_mem_weave {w : WakeFlags} {ch : List (List WakeSource)} {a b : Nat} {evs : List Stamped}
    (hrun : OwnRun a evs b) {e : Stamped} (he : e ∈ weave w ch evs) {src : WakeSource} (hs : e.event = .wake src) :
    armed src w = true := by
  induction evs generalizing a ch with
  | nil => simp at he
  | cons x xs ih =>
    obtain ⟨hw, -, -, hxs⟩ := hrun
    simp only [weave_cons, List.mem_append, List.mem_cons] at he
    obtain hdue | rfl | hrest := he
    · obtain ⟨-, src', ha, hs'⟩ := mem_wakesDue hdue
      cases hs.symm.trans hs'
      exact ha
    · simp [isWake, hs] at hw
    · exact ih hxs hrest

/-- Settles O9: the new events are a run of own events with the wake events of armed sources woven in. -/
theorem onlyArmedSourcesFire : Obligations.OnlyArmedSourcesFire := by
  intro i s t h
  obtain ⟨evs, hrun, htrace⟩ := (exec_eq_next.mp h).trace_eq
  exact ⟨_, htrace, fun e he src hs => armed_of_mem_weave hrun he hs⟩

/-- Settles O8: the watcher records the event of an armed source and leaves the state alone otherwise. -/
theorem watcherFiresWhenArmed : Obligations.WatcherFiresWhenArmed := by
  intro s src rest hi
  have hstep : step s = .next (watch src { s with inputs := rest }) := by
    simp [step, takeCommand, takeCut, hi, outsideMove]
  exact ⟨fun ha => by simp [hstep, watch, ha, record], fun ha => by simp [hstep, watch, ha]⟩

end Sys2Proof.Machine

/-!
PROOFS. The reset (10_state.md R40; 70_reset_and_hazards.md R211), the invariant of time (R36, R37, R63), the wake flags
in the variant (R136) and the invariant of the machine (R41): each holds after reset and is kept by every step.
-/

namespace Sys2Proof.Machine

/-! ### The state after reset -/

@[simp] theorem resetWith_dir (r : Bool) :
    (State.resetWith r).dir = ⟨.input, .input, .input, .input, .input, .input⟩ := rfl

@[simp] theorem resetBlock_dir (s : State) :
    (resetBlock s).dir = ⟨.input, .input, .input, .input, .input, .input⟩ := rfl
@[simp] theorem resetBlock_wk (s : State) : (resetBlock s).wk = (State.resetWith s.wk.cnt.isSome).wk := rfl
@[simp] theorem resetBlock_now (s : State) : (resetBlock s).now = 0 := rfl
@[simp] theorem resetBlock_trace (s : State) : (resetBlock s).trace = [] := rfl
@[simp] theorem resetBlock_tx (s : State) : (resetBlock s).tx = s.tx := rfl
@[simp] theorem resetBlock_rx (s : State) : (resetBlock s).rx = s.rx := rfl

/-- After reset the variant's count is the number of mask bits that are 1 (R40, D17). -/
theorem resetWith_cnt (r : Bool) :
    (State.resetWith r).wk.cnt = if r then some (maskCount (State.resetWith r).wk) else none := rfl

theorem resetWith_count {r : Bool} {c : BitVec 2} (h : (State.resetWith r).wk.cnt = some c) :
    c = maskCount (State.resetWith r).wk := by
  rw [resetWith_cnt] at h
  cases r with
  | true => exact (Option.some.inj h).symm
  | false => cases h

/-- Settles O50: all values are those of `State.resetWith`, and a pad of an input shows the environment's level. -/
theorem resetLeaves : Obligations.ResetLeaves := by
  refine ⟨rfl, fun r => ⟨rfl, rfl, rfl, rfl, rfl, resetWith_cnt r, rfl, rfl, rfl, rfl, fun ext l => ?_⟩⟩
  cases l <;> rfl

/-- Settles O51: of the completing branches, those that need an output line are shut out by the directions after reset. -/
theorem allowedAfterReset : Obligations.AllowedAfterReset := by
  intro r i
  constructor
  · rintro ⟨t, h⟩
    cases exec_eq_next.mp h with
    | init | disable | dataReady | fieldPresent => simp
    | setWakeOnField | setWakeOnDataReady => exact .inr (.inl rfl)
    | sendBufferBadArgument p len ha => exact .inr (.inr ⟨p, len, ha, .inl rfl⟩)
    | getBufferBadArgument p len ha => exact .inr (.inr ⟨p, len, ha, .inr rfl⟩)
    | suspend ho | resume ho | beginSend ho | endSend ho | sendByte _ ho | sendBuffer _ _ _ _ _ ho | getByte ho
    | getBuffer _ _ ho => cases ho
  · rintro (hi | hi | ⟨p, len, ha, rfl | rfl⟩)
    · simp only [List.mem_cons, List.not_mem_nil, or_false] at hi
      obtain rfl | rfl | rfl | rfl := hi
      · exact ⟨_, exec_init_of_idle rfl⟩
      · exact ⟨_, exec_disable_of_idle rfl⟩
      · exact ⟨_, rfl⟩
      · exact ⟨_, rfl⟩
    · cases i with
      | setWakeOnField e | setWakeOnDataReady e => exact ⟨_, rfl⟩
      | _ => cases hi
    · exact ⟨_, exec_sendBuffer_of_badArgument _ ha⟩
    · exact ⟨_, exec_getBuffer_of_badArgument _ ha⟩

/-- A reset between operations is `resetBlock` (R211). -/
theorem step_reset {s : State} {rest : List Input} (hi : s.inputs = .reset :: rest) :
    step s = .next (resetBlock { s with inputs := rest }) := by
  simp [step, takeCommand, takeCut, hi, outsideMove]

/-- A word that a reset cuts short, and that decodes, is `execCut` (R211). -/
theorem step_cut_of_decode {s : State} {w : CmdWord} {n : Nat} {rest : List Input} {i : Instr}
    (hi : s.inputs = .cut w n :: rest) (hw : decode w = .ok i) : step s = execCut i n { s with inputs := rest } := by
  simp [step, takeCommand, takeCut, hi, hw]

/-- A word that a reset cuts short, and that selects no operation, leaves the reset alone (R211). -/
theorem step_cut_of_illegal {s : State} {w : CmdWord} {n : Nat} {rest : List Input}
    (hi : s.inputs = .cut w n :: rest) (hw : ∀ i, decode w ≠ .ok i) :
    step s = .next (resetBlock { s with inputs := rest }) := by
  cases hd : decode w with
  | ok i => exact absurd hd (hw i)
  | error e => simp [step, takeCommand, takeCut, hi, hd]

/-- Settles O52: the step is `resetBlock`, which leaves exactly this. -/
theorem resetFromAnyState : Obligations.ResetFromAnyState := by
  intro s rest hi
  exact ⟨_, step_reset hi, rfl⟩

/-! ### The invariant of time -/

@[simp] theorem delaySum_nil : delaySum [] = 0 := rfl

theorem delaySum_cons (e : Stamped) (es : List Stamped) : delaySum (e :: es) = delaySum [e] + delaySum es := by
  simp [delaySum]

@[simp] theorem delaySum_append (x y : List Stamped) : delaySum (x ++ y) = delaySum x + delaySum y := by
  simp [delaySum]

/-- Wake events are no delays. -/
@[simp] theorem delaySum_wakesDue (t : Nat) (w : WakeFlags) (due : List WakeSource) : delaySum (wakesDue t w due) = 0 := by
  simp [delaySum, wakesDue, Function.comp_def]

/-- Wake events due at one moment carry one time. -/
theorem wakesDue_ordered (t : Nat) (w : WakeFlags) (due : List WakeSource) :
    (wakesDue t w due).Pairwise fun x y => x.time ≤ y.time :=
  List.pairwise_of_forall_mem_list fun x hx y hy => by rw [(mem_wakesDue hx).1, (mem_wakesDue hy).1]

section Weave
variable {w : WakeFlags} {a b : Nat} {evs : List Stamped}

/-- A run takes the sum of its delays (R36). -/
theorem OwnRun.sum (h : OwnRun a evs b) (ch : List (List WakeSource)) : b = a + delaySum (weave w ch evs) := by
  induction evs generalizing a ch with
  | nil => exact h.symm
  | cons e es ih =>
    obtain ⟨-, -, ht, hes⟩ := h
    rw [weave_cons, delaySum_append, delaySum_wakesDue, delaySum_cons, ih hes ch.tail, ht]
    omega

theorem OwnRun.le (h : OwnRun a evs b) : a ≤ b := by
  have := h.sum (w := ⟨false, false, false, none⟩) []
  omega

/-- Every event of a run, and every wake event in between, is stamped within the run. -/
theorem OwnRun.within (h : OwnRun a evs b) (ch : List (List WakeSource)) :
    ∀ e ∈ weave w ch evs, a ≤ e.time ∧ e.time ≤ b := by
  induction evs generalizing a ch with
  | nil => simp
  | cons x xs ih =>
    obtain ⟨-, hst, ht, hxs⟩ := h
    have hle := hxs.le
    intro e he
    simp only [weave_cons, hst, List.mem_append, List.mem_cons] at he
    obtain hdue | rfl | hrest := he
    · have := (mem_wakesDue hdue).1
      omega
    · omega
    · have := ih hxs ch.tail e hrest
      omega

/-- The events of a run, with the wake events in between, stand in the order of time (R37, R63). -/
theorem OwnRun.ordered (h : OwnRun a evs b) (ch : List (List WakeSource)) :
    (weave w ch evs).Pairwise fun x y => x.time ≤ y.time := by
  induction evs generalizing a ch with
  | nil => exact .nil
  | cons x xs ih =>
    obtain ⟨-, hst, ht, hxs⟩ := h
    have hrest : ∀ e ∈ weave w ch.tail xs, x.time ≤ e.time := fun e he => (hxs.within ch.tail e he).1
    rw [weave_cons, hst, List.pairwise_append, List.pairwise_cons]
    refine ⟨wakesDue_ordered _ _ _, ⟨hrest, ih hxs ch.tail⟩, fun d hd e he => ?_⟩
    rw [(mem_wakesDue hd).1]
    obtain rfl | he := List.mem_cons.mp he
    · omega
    · have := hrest e he
      omega

end Weave

/-- The invariant of time is kept when events in order, stamped from `NOW` on, are appended and `NOW` moves on by their
delays. -/
theorem TimeInv.extend {s t : State} (h : TimeInv s) {new : List Stamped} (htrace : t.trace = s.trace ++ new)
    (hnow : t.now = s.now + delaySum new) (hin : ∀ e ∈ new, s.now ≤ e.time ∧ e.time ≤ t.now)
    (hord : new.Pairwise fun x y => x.time ≤ y.time) : TimeInv t where
  sum := by rw [hnow, htrace, delaySum_append, h.sum]
  ordered := by
    rw [htrace, List.pairwise_append]
    exact ⟨h.ordered, hord, fun x hx y hy => (h.past x hx).trans (hin y hy).1⟩
  past := by
    intro e he
    obtain he | he := List.mem_append.mp (htrace ▸ he)
    · have := h.past e he
      omega
    · exact (hin e he).2

/-- The invariant of time speaks of `NOW` and `TRACE` alone. -/
theorem TimeInv.congr {s t : State} (h : TimeInv s) (htrace : t.trace = s.trace) (hnow : t.now = s.now) : TimeInv t :=
  h.extend (new := []) (by simp [htrace]) hnow (by simp) .nil

theorem timeInv_of_empty {s : State} (htrace : s.trace = []) (hnow : s.now = 0) : TimeInv s where
  sum := by rw [htrace, hnow]; rfl
  ordered := htrace ▸ .nil
  past := by simp [htrace]

theorem timeInv_resetBlock (s : State) : TimeInv (resetBlock s) := timeInv_of_empty rfl rfl

theorem Completes.timeInv {i : Instr} {s t : State} (h : Completes s i t) (hs : TimeInv s) : TimeInv t := by
  obtain ⟨evs, hrun, htrace⟩ := h.trace_eq
  exact hs.extend htrace (hrun.sum _) (hrun.within _) (hrun.ordered _)

/-- The watcher at one change of level appends the wake events due at `NOW`. -/
theorem watch_eq (src : WakeSource) (s : State) :
    watch src s = { s with trace := s.trace ++ wakesDue s.now s.wk [src] } := watchAll_eq [src] s

theorem TimeInv.watch {s : State} (h : TimeInv s) (src : WakeSource) : TimeInv (watch src s) := by
  rw [watch_eq]
  refine h.extend rfl (by simp) (fun e he => ?_) (wakesDue_ordered _ _ _)
  simp [(mem_wakesDue he).1]

theorem execCut_timeInv {i : Instr} {n : Nat} {s t : State} (h : execCut i n s = .next t) : TimeInv t := by
  obtain ⟨-, rfl⟩ | ⟨u, -, rfl⟩ := execCut_cases h
  · exact timeInv_resetBlock _
  · exact timeInv_resetBlock _

/-- Settles O57: an operation appends a run of events from `NOW` on, the watcher one at `NOW`, a reset empties `TRACE`. -/
theorem stepKeepsTimeInvariant : Obligations.StepKeepsTimeInvariant := by
  intro s t hs h
  obtain ⟨w, rest, i, -, -, hx⟩ | ⟨w, rest, -, rfl⟩ | ⟨a, b, rest, -, rfl⟩ | ⟨src, rest, -, rfl⟩ | ⟨rest, -, rfl⟩ |
    ⟨w, n, rest, -, rfl | ⟨i, -, hx⟩⟩ | ⟨-, rfl⟩ := step_cases h
  · exact (exec_eq_next.mp hx).timeInv (hs.congr rfl rfl)
  · exact hs.congr rfl rfl
  · exact hs.congr rfl rfl
  · exact TimeInv.watch (s := { s with inputs := rest }) (hs.congr rfl rfl) src
  · exact timeInv_resetBlock _
  · exact timeInv_resetBlock _
  · exact execCut_timeInv hx
  · exact hs

/-- Settles O58: `TRACE` is empty and `NOW` is 0. -/
theorem resetMeetsTimeInvariant : Obligations.ResetMeetsTimeInvariant :=
  ⟨timeInv_of_empty rfl rfl, timeInv_of_empty rfl rfl⟩

/-! ### The wake flags of the variant -/

/-- The flags of the variant with these three bits, the count being the number of mask bits that are 1. -/
def countedFlags (fd dr gie : Bool) : WakeFlags := ⟨fd, dr, gie, some (maskCount ⟨fd, dr, gie, none⟩)⟩

theorem eq_countedFlags {w : WakeFlags} (h : w.cnt = some (maskCount w)) : w = countedFlags w.fd w.dr w.gie :=
  congrArg (WakeFlags.mk w.fd w.dr w.gie) h

/-- A wake operation leaves the count the number of mask bits that are 1 (R136, D17): the count moves with the mask bit. -/
theorem setWake_cnt {w : WakeFlags} (h : w.cnt = some (maskCount w)) (src : WakeSource) (e : Bool) :
    (setWake src e w).cnt = some (maskCount (setWake src e w)) := by
  have all : ∀ e fd dr gie : Bool, (setWake src e (countedFlags fd dr gie)).cnt =
      some (maskCount (setWake src e (countedFlags fd dr gie))) := by cases src <;> decide
  rw [eq_countedFlags h]
  exact all e w.fd w.dr w.gie

/-- A wake operation clears the shared enable only with the last mask bit (R136). -/
theorem setWake_gie {w : WakeFlags} (h : w.cnt = some (maskCount w)) (hg : maskCount w ≠ 0#2 → w.gie = true)
    (src : WakeSource) (e : Bool) :
    maskCount (setWake src e w) ≠ 0#2 → (setWake src e w).gie = true := by
  have all : ∀ e fd dr gie : Bool, (maskCount (countedFlags fd dr gie) ≠ 0#2 → gie = true) →
      maskCount (setWake src e (countedFlags fd dr gie)) ≠ 0#2 →
      (setWake src e (countedFlags fd dr gie)).gie = true := by cases src <;> decide
  rw [eq_countedFlags h] at hg ⊢
  exact all e w.fd w.dr w.gie hg

/-- No wake operation makes one variant into the other (R42). -/
theorem setWake_cnt_isSome (src : WakeSource) (e : Bool) (w : WakeFlags) :
    (setWake src e w).cnt.isSome = w.cnt.isSome := by
  obtain ⟨fd, dr, gie, cnt⟩ := w
  cases cnt with
  | none => cases src <;> cases e <;> rfl
  | some c =>
    simp only [setWake, setWakeCounted]
    split_ifs <;> rfl

theorem Completes.cnt_isSome {i : Instr} {s t : State} (h : Completes s i t) : t.wk.cnt.isSome = s.wk.cnt.isSome := by
  obtain hk | ⟨-, src, e, hk⟩ := h.wk_cases
  · rw [hk]
  · rw [hk, setWake_cnt_isSome]

/-- The count is the number of mask bits that are 1, and the shared enable is set while it is not zero (R41 (e)). -/
def CountOk (w : WakeFlags) : Prop := w.cnt = some (maskCount w) ∧ (maskCount w ≠ 0#2 → w.gie = true)

theorem Completes.countOk {i : Instr} {s t : State} (h : Completes s i t) (hs : CountOk s.wk) : CountOk t.wk := by
  obtain hk | ⟨-, src, e, hk⟩ := h.wk_cases
  · rwa [hk]
  · rw [hk]
    exact ⟨setWake_cnt hs.1 src e, setWake_gie hs.1 hs.2 src e⟩

/-- A step that is no reset keeps the count and the shared enable in step. -/
theorem step_countOk {s t : State} (hs : CountOk s.wk) (hr : nextResets s = false) (h : step s = .next t) :
    CountOk t.wk := by
  obtain ⟨w, rest, i, -, -, hx⟩ | ⟨w, rest, -, rfl⟩ | ⟨a, b, rest, -, rfl⟩ | ⟨src, rest, -, rfl⟩ | ⟨rest, hi, -⟩ |
    ⟨w, n, rest, hi, -⟩ | ⟨-, rfl⟩ := step_cases h
  · exact (exec_eq_next.mp hx).countOk hs
  · exact hs
  · exact hs
  · rw [watch_eq]
    exact hs
  · simp [nextResets, hi] at hr
  · simp [nextResets, hi] at hr
  · exact hs

/-- Settles O21: only the wake operations move the flags, and they keep count and shared enable in step. -/
theorem countedEnableFollowsCount : Obligations.CountedEnableFollowsCount := by
  rintro s t c hc rfl hg hr h
  obtain ⟨hcnt, hgie⟩ := step_countOk ⟨hc, hg⟩ hr h
  exact ⟨_, hcnt, rfl, hgie⟩

/-! ### The invariant of the machine -/

theorem stateInv_resetWith (r : Bool) : StateInv (State.resetWith r) where
  irqIn := rfl
  fdIn := rfl
  selClk := rfl
  clkPwr := rfl
  sendingEnabled := fun h => by cases h
  sendingSelLow := fun h => by cases h
  count := fun _ h => resetWith_count h
  txWf := rfl
  rxWf := rfl

/-- Settles O56: the directions are inputs, the count is that of the mask bits, and the buffers are empty. -/
theorem resetMeetsInvariant : Obligations.ResetMeetsInvariant := ⟨stateInv_resetWith _, stateInv_resetWith true⟩

/-- A reset sets up the invariant, but for the buffers, which it leaves alone. -/
theorem stateInv_resetBlock {s : State} (htx : Memory.wf s.tx = true) (hrx : Memory.wf s.rx = true) :
    StateInv (resetBlock s) :=
  { stateInv_resetWith s.wk.cnt.isSome with txWf := htx, rxWf := hrx }

/-- The invariant does not speak of the inputs, the events and the responses. -/
theorem StateInv.congr {s t : State} (h : StateInv s) (hdir : t.dir = s.dir) (hlat : t.lat = s.lat) (hwk : t.wk = s.wk)
    (htx : Memory.wf t.tx = true) (hrx : Memory.wf t.rx = true) : StateInv t where
  irqIn := hdir ▸ h.irqIn
  fdIn := hdir ▸ h.fdIn
  selClk := hdir ▸ h.selClk
  clkPwr := hdir ▸ h.clkPwr
  sendingEnabled := hdir ▸ h.sendingEnabled
  sendingSelLow := hdir ▸ hlat ▸ h.sendingSelLow
  count := hwk ▸ h.count
  txWf := htx
  rxWf := hrx

/-- A completed operation leaves the receive buffer in canonical form. -/
theorem Completes.rx_wf {i : Instr} {s t : State} (h : Completes s i t) (hs : Memory.wf s.rx = true) :
    Memory.wf t.rx = true := by
  obtain hk | ⟨len, -, hk⟩ := h.rx_cases
  · rwa [hk]
  · rw [hk]
    exact storeBytes_wf len s.rx 0 (levelAt s) hs

/-- A completed operation leaves the variant's count the number of mask bits. -/
theorem Completes.count {i : Instr} {s t : State} (h : Completes s i t)
    (hs : ∀ c, s.wk.cnt = some c → c = maskCount s.wk) : ∀ c, t.wk.cnt = some c → c = maskCount t.wk := by
  obtain hk | ⟨-, src, e, hk⟩ := h.wk_cases
  · rwa [hk]
  · intro c hc
    have hsome : s.wk.cnt.isSome = true := by rw [← h.cnt_isSome, hc]; rfl
    obtain ⟨d, hd⟩ := Option.isSome_iff_exists.mp hsome
    have hcnt := setWake_cnt (hs d hd ▸ hd) src e
    rw [← hk, hc] at hcnt
    exact Option.some.inj hcnt

/-- After a completed operation Sending still implies that `SEL` is an output, driven low: `beginSend` has just made it so,
`init`, `disable` and `endSend` end in Idle, and no other operation touches `SEL` or the direction of `DAT`. -/
theorem Completes.sending {i : Instr} {s t : State} (h : Completes s i t)
    (hs : s.dir.dat = .output → s.dir.sel = .output ∧ s.lat.sel = false) :
    t.dir.dat = .output → t.dir.sel = .output ∧ t.lat.sel = false := by
  cases h with
  | init | endSend => intro ho; cases ho
  | disable hd => intro ho; cases hd.symm.trans ho
  | beginSend hsel => exact fun _ => ⟨hsel, rfl⟩
  | _ => exact hs

/-- A completed operation keeps the invariant (R41). -/
theorem Completes.stateInv {i : Instr} {s t : State} (h : Completes s i t) (hs : StateInv s) : StateInv t := by
  obtain ⟨-, hsel, hclk, hpwr, hirq, hfd⟩ := directionWriters i s t h.exec_eq
  have hsend := h.sending fun ho => ⟨hs.sendingEnabled ho, hs.sendingSelLow ho⟩
  exact {
    irqIn := hirq hs.irqIn
    fdIn := hfd hs.fdIn
    selClk := by rw [hsel, hclk, hs.selClk]
    clkPwr := by rw [hclk, hpwr, hs.clkPwr]
    sendingEnabled := fun ho => (hsend ho).1
    sendingSelLow := fun ho => (hsend ho).2
    count := h.count hs.count
    txWf := h.tx_eq ▸ hs.txWf
    rxWf := h.rx_wf hs.rxWf }

/-- What a cut operation has stored in the receive buffer leaves it in canonical form. -/
theorem rxAfter_wf {s : State} (hs : Memory.wf s.rx = true) (i : Instr) (n : Nat) : Memory.wf (rxAfter i n s) = true := by
  obtain hk | ⟨-, t, ht, hk⟩ := rxAfter_cases i n s
  · rwa [hk]
  · rw [hk]
    exact (exec_eq_next.mp ht).rx_wf hs

/-- A cut operation ends in a reset, with both buffers in canonical form. -/
theorem execCut_stateInv {i : Instr} {n : Nat} {s t : State} (h : execCut i n s = .next t) (hs : StateInv s) :
    StateInv t := by
  obtain ⟨-, rfl⟩ | ⟨u, hu, rfl⟩ := execCut_cases h
  · exact stateInv_resetBlock hs.txWf (rxAfter_wf hs.rxWf i n)
  · have hinv := (exec_eq_next.mp hu).stateInv hs
    exact stateInv_resetBlock hinv.txWf hinv.rxWf

/-- Settles O55: a completed operation keeps the invariant, a reset sets it up anew, and the other moves of the outside
touch only the buffers, the events and the responses. -/
theorem stepKeepsInvariant : Obligations.StepKeepsInvariant := by
  intro s t hs h
  have hin : ∀ rest, StateInv { s with inputs := rest } := fun _ => hs.congr rfl rfl rfl hs.txWf hs.rxWf
  obtain ⟨w, rest, i, -, -, hx⟩ | ⟨w, rest, -, rfl⟩ | ⟨a, b, rest, -, rfl⟩ | ⟨src, rest, -, rfl⟩ | ⟨rest, -, rfl⟩ |
    ⟨w, n, rest, -, rfl | ⟨i, -, hx⟩⟩ | ⟨-, rfl⟩ := step_cases h
  · exact (exec_eq_next.mp hx).stateInv (hin rest)
  · exact hs.congr rfl rfl rfl hs.txWf hs.rxWf
  · exact hs.congr rfl rfl rfl (bufferOf_wf a) (bufferOf_wf b)
  · rw [watch_eq]
    exact hs.congr rfl rfl rfl hs.txWf hs.rxWf
  · exact stateInv_resetBlock hs.txWf hs.rxWf
  · exact stateInv_resetBlock hs.txWf hs.rxWf
  · exact execCut_stateInv hx (hin rest)
  · exact hs

end Sys2Proof.Machine

/-!
PROOFS. An operation that a reset cuts short or finds ended (70_reset_and_hazards.md R211): what outlasts it outside the
block.
-/

namespace Sys2Proof.Machine

/-! ### An operation over before the reset strikes -/

/-- The reset after a completed operation finds the same variant, transmit buffer and inputs as before the operation. -/
theorem Completes.resetBlock_eq {i : Instr} {s u : State} (h : Completes s i u) :
    resetBlock u = { State.resetWith s.wk.cnt.isSome with
      sr := Config.freeSr u.fresh, bitcnt := Config.freeBitcnt u.fresh, idx := Config.freeIdx u.fresh
      fresh := u.fresh + 1, tx := s.tx, rx := u.rx, inputs := s.inputs
      changes := u.changes, draws := u.draws, drawn := u.drawn } := by
  rw [resetBlock, h.tx_eq, h.inputs_eq, h.cnt_isSome]

/-- Settles O54: the operation runs as ever, and the reset finds what it left; a fault stays. -/
theorem resetFindsAnEndedOperation : Obligations.ResetFindsAnEndedOperation := by
  intro s w n rest i hi hw s0 hn
  have hstep : step s = andNext (exec i s0) fun t => .next (resetBlock t) := by
    rw [step_cut_of_decode hi hw, execCut_ended hn]
  refine ⟨fun u hu => ⟨resetBlock u, by rw [hstep, hu]; rfl, (exec_eq_next.mp hu).resetBlock_eq⟩, fun x hx => ?_⟩
  rw [hstep, hx]
  rfl

/-! ### A reset inside an operation -/

/-- An operation that appends nothing has no micro-operation. -/
theorem microOps_eq_nil {i : Instr} {s : State} (h : traceOf (exec i s) = s.trace) : microOps i s = [] := by
  simp [microOps, h, ownEvents]

/-- A `getBuffer` gets to its first micro-operation only where `CLK` is an output and `DAT` an input (R156, R183). -/
theorem lines_of_getBuffer_runs {i : Instr} {s : State} (hi : i.op = .getBuffer) (h : microOps i s ≠ []) :
    s.dir.clk = .output ∧ s.dir.dat = .input := by
  cases i with
  | getBuffer p len =>
    by_contra hlines
    apply h
    apply microOps_eq_nil
    cases ha : bufferArgOk p len with
    | false => rw [exec_getBuffer_of_badArgument s (bufferArgOk_eq_false.mp ha)]; rfl
    | true =>
      obtain ⟨rfl, hl⟩ := bufferArgOk_eq_true.mp ha
      obtain ⟨f, hf, htrace⟩ := exec_getBuffer_fault hl hlines
      rw [hf, htrace]
  | _ => cases hi

/-- The receive buffer when `n` micro-operations of an operation are done: a `getBuffer` has stored one byte for each forty
of them (R156). -/
theorem memRead_rxAfter {i : Instr} {n : Nat} {s : State} (h : n ≤ (microOps i s).length) (j : Nat) :
    memRead (rxAfter i n s) j =
      if i.op = .getBuffer ∧ j < n / 40 then some (byteOf fun b => levelAt s (8 * j + b)) else memRead s.rx j := by
  by_cases hi : i.op = .getBuffer
  · have hrx : rxAfter i n s = storeBytes s.rx 0 (levelAt s) (n / 40) := by
      rw [rxAfter, if_pos hi, show 5 * Config.byteBits = 40 from rfl]
      by_cases hn : n / 40 = 0
      · rw [exec_getBuffer_of_badArgument s (.inr hn), hn]
        rfl
      · have hruns : microOps i s ≠ [] := List.ne_nil_of_length_pos (by omega)
        obtain ⟨hc, hd⟩ := lines_of_getBuffer_runs hi hruns
        rw [exec_getBuffer_of_idle hn hc hd]
        rfl
    rw [hrx]
    by_cases hj : j < n / 40
    · simpa [hi, hj] using memRead_storeBytes (n / 40) s.rx 0 (levelAt s) j hj
    · simpa [hj] using memRead_storeBytes_other (n / 40) s.rx 0 (levelAt s) j (.inr (by omega))
  · simp [rxAfter, hi]

/-- Settles O53: a cut operation leaves the reset of the state it was cut in; a cut illegal word the reset alone. -/
theorem resetCutsAnOperationShort : Obligations.ResetCutsAnOperationShort := by
  intro s w n rest hi
  refine ⟨fun i hw hn => ?_, fun hw => ⟨_, step_cut_of_illegal hi hw, rfl⟩⟩
  refine ⟨_, (step_cut_of_decode hi hw).trans (execCut_inside hn), rfl, fun j => ?_⟩
  exact memRead_rxAfter hn j

end Sys2Proof.Machine

/-!
PROOFS. The wake flags steer no operation but the two that write them (10_state.md R31): in a quiet environment, one with no
change of level to come, nothing else reads them. Shown rule by rule, along the way an operation is put together.
-/

namespace Sys2Proof.Machine

/-! ### Micro-operations in a quiet environment -/

section Quiet
variable {s : State} (hq : s.changes = [])
include hq

theorem withEvents_of_quiet (evs : List Stamped) : withEvents evs s = { s with trace := s.trace ++ evs } := by
  rw [withEvents, hq, weave_quiet, List.drop_nil, ← hq]

theorem pinDir_of_quiet (l : Line) (d : Dir) :
    pinDir l d s = { s with dir := s.dir.set l d, trace := s.trace ++ [⟨s.now, .dir l d⟩] } := by
  rw [pinDir_eq, withEvents_of_quiet hq]

theorem delay_of_quiet (n : Nat) :
    delay n s = { s with now := s.now + n, trace := s.trace ++ [⟨s.now + n, .delay n⟩] } := by
  rw [delay_eq, withEvents_of_quiet hq]

theorem pinWrite_of_quiet (op : Op) (l : Line) (v : Level) :
    pinWrite op l v s = if s.dir.get l = .output then
      .next { s with lat := s.lat.set l v, trace := s.trace ++ [⟨s.now, .drive l v⟩] }
    else .fault (writeViolation op l s) := by
  split_ifs with hd
  · rw [pinWrite_output op l v s hd, withEvents_of_quiet hq]
  · rw [pinWrite_input op l v s (dir_ne_output.mp hd), show envTurn s = s by simp [envTurn, hq]]

end Quiet

/-! ### Updates and operations that the wake flags do not steer -/

/-- In a quiet environment the update does the same under the wake flags `w`, leaves them, and keeps the environment quiet. -/
def Calm (w : WakeFlags) (g : State → State) : Prop :=
  ∀ s, s.changes = [] → g { s with wk := w } = { g s with wk := w } ∧ (g s).changes = []

/-- In a quiet environment `f` has the same outcome under the wake flags `w`, leaves them, and keeps the environment quiet. -/
def Unsteered (w : WakeFlags) (f : State → Result) : Prop :=
  ∀ s, s.changes = [] → f { s with wk := w } = withWake w (f s) ∧ ∀ t, f s = .next t → t.changes = []

section Rules
variable {w : WakeFlags}

theorem Calm.andThen {g k : State → State} (hg : Calm w g) (hk : Calm w k) : Calm w fun s => k (g s) := by
  intro s hq
  obtain ⟨heq, hkeep⟩ := hg s hq
  simp only [heq]
  exact hk (g s) hkeep

theorem calm_pinDir (l : Line) (d : Dir) : Calm w (pinDir l d) :=
  fun s hq => by simp [pinDir_of_quiet, hq]

theorem calm_delay (n : Nat) : Calm w (delay n) :=
  fun s hq => by simp [delay_of_quiet, hq]

/-- A `PinRead` finds the same level under other wake flags. -/
theorem pinRead_of_quiet {s : State} (hq : s.changes = []) (l : Line) :
    pinRead l { s with wk := w } = ((pinRead l s).1, { (pinRead l s).2 with wk := w }) ∧
      (pinRead l s).2.changes = [] := by
  cases hd : s.dir.get l with
  | output => simp [pinRead_output, hd, withEvents_of_quiet, hq]
  | input => simp [pinRead_input, hd, withEvents_of_quiet, hq, levelAt, afterDraws]

theorem Calm.next {g : State → State} (hg : Calm w g) : Unsteered w fun s => .next (g s) := by
  intro s hq
  obtain ⟨heq, hkeep⟩ := hg s hq
  exact ⟨congrArg Host.Outcome.next heq, fun t h => by cases h; exact hkeep⟩

theorem unsteered_fault {x : State → Fault} (hx : ∀ s, x { s with wk := w } = x s) :
    Unsteered w fun s => .fault (x s) :=
  fun s _ => ⟨congrArg Host.Outcome.fault (hx s), fun t h => by cases h⟩

theorem Unsteered.after {f : State → Result} {g : State → State} (hf : Unsteered w f) (hg : Calm w g) :
    Unsteered w fun s => f (g s) := by
  intro s hq
  obtain ⟨heq, hkeep⟩ := hg s hq
  simp only [heq]
  exact hf (g s) hkeep

theorem Unsteered.andNext {f k : State → Result} (hf : Unsteered w f) (hk : Unsteered w k) :
    Unsteered w fun s => andNext (f s) k := by
  intro s hq
  obtain ⟨heq, hkeep⟩ := hf s hq
  simp only [heq]
  cases hfs : f s with
  | next t => exact hk t (hkeep t hfs)
  | fault x => exact ⟨rfl, fun t h => by cases h⟩
  | refused x => exact ⟨rfl, fun t h => by cases h⟩

/-- A test that does not read the wake flags, between two that are not steered by them. -/
theorem Unsteered.ite {c : State → Prop} [DecidablePred c] {f k : State → Result} (hf : Unsteered w f)
    (hk : Unsteered w k) (hc : ∀ s, c { s with wk := w } = c s) : Unsteered w fun s => if c s then f s else k s := by
  intro s hq
  simp only [hc]
  split_ifs
  · exact hf s hq
  · exact hk s hq

theorem unsteered_repeatStep {f : State → Result} (hf : Unsteered w f) (n : Nat) : Unsteered w (repeatStep n f) := by
  induction n with
  | zero => exact Calm.next fun s hq => ⟨rfl, hq⟩
  | succ n ih => exact hf.andNext ih

theorem unsteered_pinWrite (op : Op) (l : Line) (v : Level) : Unsteered w (pinWrite op l v) := by
  intro s hq
  by_cases hd : s.dir.get l = .output
  · simp [pinWrite_of_quiet, hq, hd, withWake]
  · have hl : writeViolation op l { s with wk := w } = writeViolation op l s := by cases l <;> rfl
    simp [pinWrite_of_quiet, hq, hd, withWake, ← hl]

/-- A `PinWrite` of a level read off the state, but not off the wake flags. -/
theorem unsteered_pinWrite_of (op : Op) (l : Line) {v : State → Level} (hv : ∀ s, v { s with wk := w } = v s) :
    Unsteered w fun s => pinWrite op l (v s) s := by
  intro s hq
  simp only [hv]
  exact unsteered_pinWrite op l (v s) s hq

/-! ### The operations -/

theorem calm_respond (st : Status) (v : Byte) : Calm w (respond st v) := fun _ hq => ⟨rfl, hq⟩

/-- Nothing is left to do but to answer. -/
theorem unsteered_complete : Unsteered w complete := (calm_respond .ok 0#8).next

theorem unsteered_shiftOutBit (op : Op) : Unsteered w (shiftOutBit op) :=
  (unsteered_pinWrite op .clk false).andNext <|
  (unsteered_pinWrite_of op .dat (v := fun s => wireBit s.sr s.bitcnt.val) fun _ => rfl).andNext <|
  ((unsteered_pinWrite op .clk true).after (calm_delay Config.tSettle)).andNext <|
  ((calm_delay Config.tSettle).andThen (k := fun s => { s with bitcnt := s.bitcnt + 1 }) fun _ hq => ⟨rfl, hq⟩).next

theorem unsteered_shiftOutByte (op : Op) (v : Byte) : Unsteered w (shiftOutByte op v) :=
  (unsteered_repeatStep (unsteered_shiftOutBit op) Config.byteBits).after
    (g := fun s => { s with sr := v, bitcnt := 0 }) fun _ hq => ⟨rfl, hq⟩

/-- The sample of a receive step: `DAT` is read and shifted into `SR` (R155). -/
def sampleIntoSr (s : State) : State :=
  { (pinRead .dat s).2 with sr := shiftInBit (pinRead .dat s).2.sr (pinRead .dat s).1 }

theorem calm_sampleIntoSr : Calm w sampleIntoSr := by
  intro s hq
  obtain ⟨heq, hkeep⟩ := pinRead_of_quiet (w := w) hq .dat
  exact ⟨by simp only [sampleIntoSr, heq], hkeep⟩

theorem unsteered_shiftInStep (op : Op) : Unsteered w (shiftInStep op) :=
  (unsteered_pinWrite op .clk false).andNext <|
  ((unsteered_pinWrite op .clk true).after ((calm_delay Config.tSettle).andThen calm_sampleIntoSr)).andNext <|
  ((calm_delay Config.tSettle).andThen (k := fun s => { s with bitcnt := s.bitcnt + 1 }) fun _ hq => ⟨rfl, hq⟩).next

theorem unsteered_shiftInByte (op : Op) : Unsteered w (shiftInByte op) :=
  (unsteered_repeatStep (unsteered_shiftInStep op) Config.byteBits).after
    (g := fun s => { s with sr := 0#8, bitcnt := 0 }) fun _ hq => ⟨rfl, hq⟩

theorem unsteered_sendElement : Unsteered w sendElement := by
  intro s hq
  cases hm : memRead s.tx s.idx with
  | none => exact ⟨by simp [sendElement, hm, withWake], fun t h => by simp [sendElement, hm] at h⟩
  | some v =>
    have hrun := ((unsteered_shiftOutByte .sendBuffer v).andNext
      (Calm.next (w := w) (g := fun s => { s with idx := s.idx + 1 }) fun _ hq => ⟨rfl, hq⟩)) s hq
    simpa only [sendElement, hm] using hrun

theorem unsteered_getElement : Unsteered w getElement :=
  (unsteered_shiftInByte .getBuffer).andNext <|
  Calm.next (g := fun s => { s with rx := memWrite s.rx s.idx s.sr, idx := s.idx + 1 }) fun _ hq => ⟨rfl, hq⟩

/-- The elements of a buffer, one after the other from element 0, and the answer (R154, R156). -/
theorem unsteered_buffer {f : State → Result} (hf : Unsteered w f) (len : Nat) :
    Unsteered w fun s =>
      andNext (repeatStep len f { s with idx := 0 }) fun s => complete (releaseBufferRegs s) :=
  ((unsteered_repeatStep hf len).after (g := fun s => { s with idx := 0 }) fun _ hq => ⟨rfl, hq⟩).andNext <|
  unsteered_complete.after fun _ hq => ⟨rfl, hq⟩

/-- No operation but the two wake operations is steered by the wake flags (R31). -/
theorem unsteered_exec {i : Instr} (hi : setsWake i = false) : Unsteered w (exec i) := by
  cases i with
  | init =>
    exact Unsteered.ite (unsteered_complete.after <| (calm_pinDir .sel .output).andThen <|
      (calm_pinDir .clk .output).andThen <| (calm_pinDir .dat .input).andThen <| (calm_pinDir .pwr .output).andThen <|
      (calm_pinDir .irq .input).andThen (calm_pinDir .fd .input)) (unsteered_fault fun _ => rfl) fun _ => rfl
  | disable =>
    exact Unsteered.ite (unsteered_complete.after <| (calm_pinDir .sel .input).andThen <|
      (calm_pinDir .clk .input).andThen (calm_pinDir .pwr .input)) (unsteered_fault fun _ => rfl) fun _ => rfl
  | suspend =>
    exact Unsteered.ite ((unsteered_pinWrite .suspend .pwr false).andNext unsteered_complete)
      (unsteered_fault fun _ => rfl) fun _ => rfl
  | resume =>
    exact Unsteered.ite ((unsteered_pinWrite .resume .pwr true).andNext <|
      unsteered_complete.after (calm_delay Config.tPowerup)) (unsteered_fault fun _ => rfl) fun _ => rfl
  | dataReady =>
    intro s hq
    obtain ⟨heq, hkeep⟩ := pinRead_of_quiet (w := w) hq .irq
    exact ⟨by simp only [exec, execDataReady, heq]; rfl, fun t h => by cases h; exact hkeep⟩
  | fieldPresent =>
    intro s hq
    obtain ⟨heq, hkeep⟩ := pinRead_of_quiet (w := w) hq .fd
    exact ⟨by simp only [exec, execFieldPresent, heq]; rfl, fun t h => by cases h; exact hkeep⟩
  | setWakeOnField e | setWakeOnDataReady e => cases hi
  | beginSend =>
    exact Unsteered.ite (Unsteered.ite ((unsteered_pinWrite .beginSend .sel false).andNext <|
      unsteered_complete.after <| (calm_delay Config.tSettle).andThen (calm_pinDir .dat .output))
      (unsteered_fault fun _ => rfl) fun _ => rfl) (unsteered_fault fun _ => rfl) fun _ => rfl
  | endSend =>
    exact Unsteered.ite (((unsteered_pinWrite .endSend .sel true).after <|
      (calm_delay Config.tSettle).andThen <| (calm_pinDir .dat .input).andThen (calm_delay Config.tSettle)).andNext
      unsteered_complete) (unsteered_fault fun _ => rfl) fun _ => rfl
  | sendByte v =>
    exact Unsteered.ite ((unsteered_shiftOutByte .sendByte v).andNext <|
      unsteered_complete.after fun _ hq => ⟨rfl, hq⟩) (unsteered_fault fun _ => rfl) fun _ => rfl
  | sendBuffer p len =>
    exact Unsteered.ite (Unsteered.ite (unsteered_buffer unsteered_sendElement len) (unsteered_fault fun _ => rfl)
      fun _ => rfl) (calm_respond _ _).next fun _ => rfl
  | getByte =>
    exact Unsteered.ite (Unsteered.ite ((unsteered_shiftInByte .getByte).andNext <|
      Calm.next (g := fun s => respond .ok s.sr (releaseByteRegs s)) fun _ hq => ⟨rfl, hq⟩)
      (unsteered_fault fun _ => rfl) fun _ => rfl) (unsteered_fault fun _ => rfl) fun _ => rfl
  | getBuffer p len =>
    exact Unsteered.ite (Unsteered.ite (Unsteered.ite (unsteered_buffer unsteered_getElement len)
      (unsteered_fault fun _ => rfl) fun _ => rfl) (unsteered_fault fun _ => rfl) fun _ => rfl)
      (calm_respond _ _).next fun _ => rfl

end Rules

/-- Settles O22: rule by rule, no operation but the two wake operations is steered by the wake flags. -/
theorem wakeFlagsDoNotSteer : Obligations.WakeFlagsDoNotSteer :=
  fun _ s _ hi hq => (unsteered_exec hi s hq).1

end Sys2Proof.Machine

/-!
PROOFS. The family 20_memory.md: the caller's buffers (R52, R55) sent, received and replaced, the laws of the shift
register (R54, R157), the levels on `CLK` and `DAT` while a byte goes out (R159), and the level of a pad after a `PinWrite`
(R71, R101).
-/

namespace Sys2Proof.Machine

/-! ### The laws of the shift register -/

/-- The bit sent at a step, as arithmetic: bit 7 first (R157). -/
theorem wireBit_toNat (v : Byte) (j : Nat) : (wireBit v j).toNat = v.toNat / 2 ^ (7 - j) % 2 := by
  rw [wireBit, BitVec.getLsbD, Nat.toNat_testBit]

/-- Of the bits a byte is sent as, the first `n` shifted into an empty `SR` are the top `n` bits of the byte (R157). -/
theorem shiftInBit_wireBit (v : Byte) (n : Nat) (hn : n ≤ 8) :
    ((List.range n).foldl (fun r j => shiftInBit r (wireBit v j)) 0#8).toNat = v.toNat / 2 ^ (8 - n) := by
  have hv := v.isLt
  induction n with
  | zero => exact (Nat.div_eq_of_lt hv).symm
  | succ n ih =>
    have hhalf : v.toNat / 2 ^ (8 - n) = v.toNat / 2 ^ (7 - n) / 2 := by
      rw [Nat.div_div_eq_div_mul, ← pow_succ, show 8 - n = 7 - n + 1 by omega]
    have hle := Nat.div_le_self v.toNat (2 ^ (7 - n))
    rw [List.range_succ, List.foldl_append, List.foldl_cons, List.foldl_nil, shiftInBit_toNat, ih (by omega),
      wireBit_toNat, hhalf, show 8 - (n + 1) = 7 - n by omega]
    omega

/-- The eight bits a byte is sent as make that byte (R157). -/
theorem byteOf_wireBit (v : Byte) : byteOf (wireBit v) = v := by
  apply BitVec.eq_of_toNat_eq
  rw [← shiftInBit_eight 0#8 (wireBit v), shiftInBit_wireBit v 8 le_rfl, Nat.sub_self, pow_zero, Nat.div_one]

/-- Settles O34: bits and shifts as arithmetic; eight shifts make the byte of the eight levels, which for the levels a byte
is sent as is that byte. -/
theorem shiftLaws : Obligations.ShiftLaws := by
  refine ⟨fun v j _ => wireBit_toNat v j, fun sr b => ?_, fun sr b7 b6 b5 b4 b3 b2 b1 b0 => ?_, fun v sr => ?_⟩
  · apply BitVec.eq_of_toNat_eq
    rw [shiftInBit_toNat, BitVec.toNat_ofNat]
  · have h7 := b7.toNat_lt; have h6 := b6.toNat_lt; have h5 := b5.toNat_lt; have h4 := b4.toNat_lt
    have h3 := b3.toNat_lt; have h2 := b2.toNat_lt; have h1 := b1.toNat_lt; have h0 := b0.toNat_lt
    simp only [List.foldl_cons, List.foldl_nil, shiftInBit_toNat]
    omega
  · rw [List.foldl_map, shiftInBit_eight, byteOf_wireBit]

/-! ### The waveform of a byte sent -/

/-- What is collected from the block's own events is collected from the woven events, wake events giving nothing. -/
theorem filterMap_weave {α : Type} {f : Stamped → Option α} (hf : ∀ t src, f ⟨t, .wake src⟩ = none) (w : WakeFlags)
    (ch : List (List WakeSource)) (evs : List Stamped) : (weave w ch evs).filterMap f = evs.filterMap f := by
  induction evs generalizing ch with
  | nil => rfl
  | cons e es ih =>
    have hdue : (wakesDue (startTime e) w (ch.headD [])).filterMap f = [] := by
      simp [wakesDue, List.filterMap_map, hf]
    rw [weave_cons, List.filterMap_append, hdue, List.nil_append, List.filterMap_cons, List.filterMap_cons, ih]

theorem clkWrites_weave (w : WakeFlags) (ch : List (List WakeSource)) (evs : List Stamped) :
    clkWrites (weave w ch evs) = clkWrites evs := filterMap_weave (fun _ _ => rfl) w ch evs

/-- Wake events write no line, so a receiver does not see them. -/
theorem risingSamples_wakesDue_append (d : Level) (t : Nat) (w : WakeFlags) (due : List WakeSource)
    (rest : List Stamped) : risingSamples d (wakesDue t w due ++ rest) = risingSamples d rest := by
  rw [wakesDue]
  induction due.filter fun src => armed src w with
  | nil => rfl
  | cons src srcs ih => exact ih

/-- What a receiver sees of an event and of those after it depends on the events after it only through what it sees of
them. -/
theorem risingSamples_cons_congr (e : Stamped) {xs ys : List Stamped}
    (h : ∀ d, risingSamples d xs = risingSamples d ys) (d : Level) :
    risingSamples d (e :: xs) = risingSamples d (e :: ys) := by
  simp only [risingSamples, h]

theorem risingSamples_weave (d : Level) (w : WakeFlags) (ch : List (List WakeSource)) (evs : List Stamped) :
    risingSamples d (weave w ch evs) = risingSamples d evs := by
  induction evs generalizing d ch with
  | nil => rfl
  | cons e es ih =>
    rw [weave_cons, risingSamples_wakesDue_append]
    exact risingSamples_cons_congr e (fun d => ih d ch.tail) d

/-- Each bit sent writes `CLK` low, then high. -/
theorem clkWrites_bitsOut (t : Nat → Nat) (b : Nat → Level) (js : List Nat) :
    clkWrites (js.flatMap fun j => bitOutEvents (t j) (b j)) = (List.replicate js.length [false, true]).flatten := by
  induction js with
  | nil => rfl
  | cons j js ih =>
    rw [List.length_cons, List.replicate_succ, List.flatten_cons, ← ih]
    rfl

/-- At the rising edge of each bit sent, `DAT` shows that bit, whatever it showed before. -/
theorem risingSamples_bitsOut (d : Level) (t : Nat → Nat) (b : Nat → Level) (js : List Nat) :
    risingSamples d (js.flatMap fun j => bitOutEvents (t j) (b j)) = js.map b := by
  induction js generalizing d with
  | nil => rfl
  | cons j js ih => exact congrArg (b j :: ·) (ih (b j))

/-- Settles O27: the wake events in between touch no line, and each of the eight bits is set up while the clock is low. -/
theorem sendByteWaveform : Obligations.SendByteWaveform := by
  intro s v hd hc
  refine ⟨_, _, exec_sendByte_of_sending v hd hc, rfl, ?_, ?_⟩
  · rw [clkWrites_weave, sendByteEvents, clkWrites_bitsOut, List.length_range]
  · rw [risingSamples_weave, sendByteEvents, risingSamples_bitsOut]
    rfl

/-! ### The caller's buffers -/

/-- Settles O28: the run of `exec_sendBuffer_of_sending`, for the first byte and the rest of the list. -/
theorem sendBufferShiftsOut : Obligations.SendBufferShiftsOut := by
  intro s bytes hne hm hd hc
  cases bytes with
  | nil => exact absurd rfl hne
  | cons v rest => exact ⟨_, exec_sendBuffer_of_sending v rest hm hd hc, rfl⟩

/-- Settles O33: the run of `exec_getBuffer_of_idle`, which stores the bytes from element 0 on and no others. -/
theorem getBufferShiftsIn : Obligations.GetBufferShiftsIn := by
  intro s len hl hc hd
  refine ⟨_, exec_getBuffer_of_idle hl hc hd, rfl, fun k hk => ?_, fun k hk => ?_⟩
  · simpa using memRead_storeBytes len s.rx 0 (levelAt s) k hk
  · exact memRead_storeBytes_other len s.rx 0 (levelAt s) k (.inr (by omega))

/-- With no move of the outside the block is at rest (D22). -/
theorem step_of_no_inputs {s : State} (hi : s.inputs = []) : step s = .next s := by
  simp [step, takeCommand, takeCut, hi, outsideMove]

/-- The host replaces the two buffers between commands (R52, R91). -/
theorem step_of_buffers {s : State} {a b : List Byte} {rest : List Input} (hi : s.inputs = .buffers a b :: rest) :
    step s = .next { s with inputs := rest, tx := bufferOf a, rx := bufferOf b } := by
  simp [step, takeCommand, takeCut, hi, outsideMove]

/-- Settles O7: the step rests, or puts the buffers of the supplied bytes in place. -/
theorem outsideMovesBetweenCommands : Obligations.OutsideMovesBetweenCommands :=
  ⟨fun _ hi => step_of_no_inputs hi,
    fun _ a b _ hi => ⟨_, step_of_buffers hi, rfl, memRead_bufferOf a, memRead_bufferOf b⟩⟩

/-! ### The level of a pad -/

@[simp] theorem lines_get_set_same {α : Type} (ls : Lines α) (l : Line) (v : α) : (ls.set l v).get l = v := by
  cases l <;> rfl

theorem lines_get_set_other {α : Type} (ls : Lines α) {k l : Line} (v : α) (h : k ≠ l) :
    (ls.set l v).get k = ls.get k := by
  cases l <;> cases k <;> simp [Lines.get, Lines.set] at h ⊢

/-- The pad of an output shows its latch (R23). -/
theorem pad_output {s : State} {l : Line} {v : Level} (hdir : s.dir.get l = .output) (hlat : s.lat.get l = v)
    (ext : Lines Level) : pad s ext l = v := by rw [pad, if_pos hdir, hlat]

/-- A line whose direction and latch stay as they are keeps its pad. -/
theorem pad_congr {s t : State} {l : Line} (hdir : t.dir.get l = s.dir.get l) (hlat : t.lat.get l = s.lat.get l)
    (ext : Lines Level) : pad t ext l = pad s ext l := by rw [pad, pad, hdir, hlat]

/-- The violation of a `PinWrite` of an input carries the events up to then, the wake events of the environment's turn
included (R101). -/
theorem writeViolation_envTurn (op : Op) (l : Line) (s : State) :
    writeViolation op l (envTurn s) =
      writeViolation op l { s with trace := s.trace ++ wakesDue s.now s.wk (s.changes.headD []) } := by
  rw [envTurn_eq]
  cases l <;> rfl

/-- Settles O41: the latch written is the one the pad and a read show, and no other latch moves; an input is a violation. -/
theorem pinWriteSetsTheLevel : Obligations.PinWriteSetsTheLevel := by
  constructor
  · intro s op l v ho
    have hsame := lines_get_set_same s.lat l v
    have hother (k : Line) (hk : k ≠ l) := lines_get_set_other s.lat v hk
    refine ⟨_, pinWrite_output op l v s ho, rfl, hsame, hother, pad_output ho hsame, fun ext k hk => ?_, ?_⟩
    · apply pad_congr
      · rfl
      · exact hother k hk
    · rw [pinRead_output]
      · exact hsame
      · exact ho
  · intro s op v evs
    have hviol (l : Line) (hi : s.dir.get l = .input) :
        pinWrite op l v s = .fault (writeViolation op l { s with trace := evs }) := by
      rw [pinWrite_input op l v s hi, writeViolation_envTurn]
    exact ⟨hviol .sel, hviol .clk, hviol .pwr, hviol .dat⟩

end Sys2Proof.Machine

/-!
PROOFS. The encoding (30_encoding.md R81 to R85): a word is its opcode above its argument field, the opcode names an
operation, and the operation's format says which argument fields fit and which instruction each of them makes. The
decoder, the encoder and the printed map are each put in these terms once, and agree because of it.
-/

namespace Sys2Proof

/-! ### Fields of a word -/

theorem append_eq_append_iff {m n : Nat} {a c : BitVec m} {b d : BitVec n} :
    a ++ b = c ++ d ↔ a = c ∧ b = d := by
  refine ⟨fun h => ⟨?_, ?_⟩, fun ⟨ha, hb⟩ => by rw [ha, hb]⟩
  · simpa [BitVec.extractLsb'_append_eq_left] using congrArg (BitVec.extractLsb' n m) h
  · simpa [BitVec.extractLsb'_append_eq_right] using congrArg (BitVec.extractLsb' 0 n) h

/-- A single bit as a field of width 1. -/
theorem extractLsb'_one {n : Nat} (x : BitVec n) (i : Nat) : x.extractLsb' i 1 = BitVec.ofBool (x.getLsbD i) := by
  apply BitVec.eq_of_getLsbD_eq
  simp

theorem toNat_append_eq_add {m n : Nat} (a : BitVec m) (b : BitVec n) :
    (a ++ b).toNat = 2 ^ n * a.toNat + b.toNat := by
  rw [BitVec.toNat_append, ← Nat.shiftLeft_add_eq_or_of_lt b.isLt, Nat.shiftLeft_eq, Nat.mul_comm]

/-- A word is its opcode above its argument field (R81). -/
theorem opField_append_argField (w : CmdWord) : opField w ++ argField w = w :=
  BitVec.extractLsb'_append_extractLsb'

/-- The argument field of format F (R82). -/
theorem argField_eq_flag (w : CmdWord) : argField w = w.extractLsb' 1 11 ++ BitVec.ofBool (w.getLsbD 0) := by
  rw [← extractLsb'_one]
  exact (BitVec.extractLsb'_append_extractLsb'_eq_extractLsb' (len₁ := 1) (len₂ := 11) rfl).symm

/-- The argument field of format V (R82). -/
theorem argField_eq_byte (w : CmdWord) : argField w = w.extractLsb' 8 4 ++ w.extractLsb' 0 8 :=
  (BitVec.extractLsb'_append_extractLsb'_eq_extractLsb' (len₁ := 8) (len₂ := 4) rfl).symm

/-- The argument field of format L (R82). -/
theorem argField_eq_buffer (w : CmdWord) : argField w = BitVec.ofBool (w.getLsbD 11) ++ w.extractLsb' 0 11 := by
  rw [← extractLsb'_one]
  exact (BitVec.extractLsb'_append_extractLsb'_eq_extractLsb' (len₁ := 11) (len₂ := 1) rfl).symm

/-! ### Formats -/

/-- The four formats of the argument field (R82), each with the instruction it makes of its operands. -/
inductive ArgFormat where
  /-- No operand. -/
  | N (i : Instr)
  /-- A flag. -/
  | F (mk : Bool → Instr)
  /-- A byte. -/
  | V (mk : Byte → Instr)
  /-- A buffer reference with its length. -/
  | L (mk : Bool → Nat → Instr)

/-- The bits of the argument field that carry no operand are zero (R82). -/
def ArgFormat.fits (w : CmdWord) : ArgFormat → Bool
  | .N _ => argField w = 0#12
  | .F _ => w.extractLsb' 1 11 = 0#11
  | .V _ => w.extractLsb' 8 4 = 0#4
  | .L _ => true

/-- The instruction with the operands that the word carries (R83). -/
def ArgFormat.instr (w : CmdWord) : ArgFormat → Instr
  | .N i => i
  | .F mk => mk (w.getLsbD 0)
  | .V mk => mk (w.extractLsb' 0 8)
  | .L mk => mk (w.getLsbD 11) (w.extractLsb' 0 11).toNat

/-- The bits of the argument field that carry no operand, as a mask (R84). -/
def ArgFormat.unusedMask : ArgFormat → BitVec 12
  | .N _ => BitVec.allOnes 12
  | .F _ => BitVec.allOnes 11 ++ 0#1
  | .V _ => BitVec.allOnes 4 ++ 0#8
  | .L _ => 0#12

/-- The format of each operation, in the order of the operation surface (R84). -/
def formatOf : Op → ArgFormat
  | .init => .N .init
  | .disable => .N .disable
  | .suspend => .N .suspend
  | .resume => .N .resume
  | .dataReady => .N .dataReady
  | .fieldPresent => .N .fieldPresent
  | .setWakeOnField => .F .setWakeOnField
  | .setWakeOnDataReady => .F .setWakeOnDataReady
  | .beginSend => .N .beginSend
  | .endSend => .N .endSend
  | .sendByte => .V .sendByte
  | .sendBuffer => .L .sendBuffer
  | .getByte => .N .getByte
  | .getBuffer => .L .getBuffer

@[simp] theorem op_instr_formatOf (op : Op) (w : CmdWord) : ((formatOf op).instr w).op = op := by cases op <;> rfl

theorem and_unusedMask_eq_zero (f : ArgFormat) (w : CmdWord) :
    argField w &&& f.unusedMask = 0#12 ↔ f.fits w = true := by
  cases f with
  | N i => rw [ArgFormat.unusedMask, BitVec.and_allOnes, ArgFormat.fits, decide_eq_true_iff]
  | F mk =>
    rw [argField_eq_flag, ArgFormat.unusedMask, BitVec.and_append, BitVec.and_allOnes, BitVec.and_zero,
      show 0#12 = 0#11 ++ 0#1 from rfl, append_eq_append_iff]
    simp [ArgFormat.fits]
  | V mk =>
    rw [argField_eq_byte, ArgFormat.unusedMask, BitVec.and_append, BitVec.and_allOnes, BitVec.and_zero,
      show 0#12 = 0#4 ++ 0#8 from rfl, append_eq_append_iff]
    simp [ArgFormat.fits]
  | L mk => simp [ArgFormat.unusedMask, ArgFormat.fits]

/-! ### The decoder, by opcode and format -/

theorem opField_cases (w : CmdWord) :
    (∃ op, opField w = opcodeOf op) ∨ opField w = 0xE#4 ∨ opField w = 0xF#4 := by
  have hall : ∀ o : BitVec 4, (∃ row ∈ opcodeMap, o = opcodeOf row.op) ∨ o = 0xE#4 ∨ o = 0xF#4 := by decide
  exact (hall (opField w)).imp_left fun ⟨row, _, h⟩ => ⟨row.op, h⟩

/-- The decoder at a word with the opcode of an operation (R84, R85). -/
theorem decode_of_opcode {w : CmdWord} {op : Op} (h : opField w = opcodeOf op) :
    decode w = if (formatOf op).fits w then .ok ((formatOf op).instr w) else .error (.illegalCommand w) := by
  cases op <;> simp [decode, h, opcodeOf, formatOf, ArgFormat.fits, ArgFormat.instr, decodeN, decodeF, decodeV, decodeL]

/-- The two opcodes that no operation has (R85). -/
theorem decode_of_unused_opcode {w : CmdWord} (h : opField w = 0xE#4 ∨ opField w = 0xF#4) :
    decode w = .error (.illegalCommand w) := by
  rcases h with h | h <;> simp [decode, h]

theorem decode_eq_ok_iff {w : CmdWord} {i : Instr} :
    decode w = .ok i ↔
      opField w = opcodeOf i.op ∧ (formatOf i.op).fits w = true ∧ (formatOf i.op).instr w = i := by
  constructor
  · intro h
    obtain ⟨op, hop⟩ | hunused := opField_cases w
    · rw [decode_of_opcode hop] at h
      split_ifs at h with hfits
      cases h
      simp [hop, hfits]
    · rw [decode_of_unused_opcode hunused] at h
      cases h
  · rintro ⟨hop, hfits, hi⟩
    rw [decode_of_opcode hop, if_pos hfits, hi]

/-- A word decodes to an operation when it has its opcode and fits its format (R84). -/
theorem exists_decode_eq_ok_iff {w : CmdWord} {op : Op} :
    (∃ i, decode w = .ok i ∧ i.op = op) ↔ opField w = opcodeOf op ∧ (formatOf op).fits w = true := by
  constructor
  · rintro ⟨i, hi, rfl⟩
    obtain ⟨hop, hfits, -⟩ := decode_eq_ok_iff.mp hi
    exact ⟨hop, hfits⟩
  · rintro ⟨hop, hfits⟩
    exact ⟨(formatOf op).instr w, by rw [decode_of_opcode hop, if_pos hfits], op_instr_formatOf op w⟩

/-! ### The encoder, by opcode and format -/

theorem encode_eq_iff {i : Instr} {w : CmdWord} :
    encode i = w ↔ opField w = opcodeOf i.op ∧ encodeArg i = argField w := by
  rw [← opField_append_argField w, encode, append_eq_append_iff, opField_append_argField, eq_comm (a := opField w)]

theorem encodeArg_flag_eq_iff {w : CmdWord} {e : Bool} :
    0#11 ++ BitVec.ofBool e = argField w ↔ w.extractLsb' 1 11 = 0#11 ∧ w.getLsbD 0 = e := by
  rw [argField_eq_flag, append_eq_append_iff, eq_comm (a := 0#11), BitVec.ofBool_eq_iff_eq, eq_comm (a := e)]

theorem encodeArg_byte_eq_iff {w : CmdWord} {v : Byte} :
    0#4 ++ v = argField w ↔ w.extractLsb' 8 4 = 0#4 ∧ w.extractLsb' 0 8 = v := by
  rw [argField_eq_byte, append_eq_append_iff, eq_comm (a := 0#4), eq_comm (a := v)]

/-- A length that fits the 11 bits of its field is read back from it (R83). -/
theorem encodeArg_buffer_eq_iff {w : CmdWord} {p : Bool} {n : Nat} :
    BitVec.ofBool p ++ BitVec.ofNat 11 n = argField w ∧ lenFits n = true ↔
      w.getLsbD 11 = p ∧ (w.extractLsb' 0 11).toNat = n := by
  have hlt := (w.extractLsb' 0 11).isLt
  have hfield : BitVec.ofNat 11 n = w.extractLsb' 0 11 ∧ n < 2048 ↔ (w.extractLsb' 0 11).toNat = n := by
    rw [← BitVec.toNat_inj, BitVec.toNat_ofNat]
    omega
  rw [argField_eq_buffer, append_eq_append_iff, BitVec.ofBool_eq_iff_eq, eq_comm (a := p), and_assoc, ← hfield,
    lenFits, decide_eq_true_iff, show 2 ^ Config.cmdLenBits = 2048 from rfl]

/-- The argument field of a well-formed instruction is the one that fits its format and makes it. -/
theorem encodeArg_eq_argField_iff {i : Instr} {w : CmdWord} :
    encodeArg i = argField w ∧ WellFormed i ↔ (formatOf i.op).fits w = true ∧ (formatOf i.op).instr w = i := by
  cases i with
  | init | disable | suspend | resume | dataReady | fieldPresent | beginSend | endSend | getByte =>
    simp [encodeArg, Instr.wellFormed, Instr.op, formatOf, ArgFormat.fits, ArgFormat.instr, eq_comm]
  | setWakeOnField e | setWakeOnDataReady e =>
    simp [encodeArg, encodeArg_flag_eq_iff, WellFormed, Instr.wellFormed, Instr.op, formatOf, ArgFormat.fits,
      ArgFormat.instr]
  | sendByte v =>
    simp [encodeArg, encodeArg_byte_eq_iff, WellFormed, Instr.wellFormed, Instr.op, formatOf, ArgFormat.fits,
      ArgFormat.instr]
  | sendBuffer p n | getBuffer p n =>
    rw [encodeArg, WellFormed, Instr.wellFormed, encodeArg_buffer_eq_iff]
    simp only [Instr.op, formatOf, ArgFormat.fits, ArgFormat.instr, true_and, Instr.sendBuffer.injEq,
      Instr.getBuffer.injEq]

/-- Decoder and encoder are inverse to each other on well-formed instructions (R84). -/
theorem decode_eq_ok_iff_encode {w : CmdWord} {i : Instr} : decode w = .ok i ↔ encode i = w ∧ WellFormed i := by
  rw [decode_eq_ok_iff, encode_eq_iff, and_assoc, encodeArg_eq_argField_iff]

/-- Settles O1: the word of a well-formed instruction decodes to it. -/
theorem decodeOfEncode : Obligations.DecodeOfEncode :=
  fun _ hi => decode_eq_ok_iff_encode.mpr ⟨rfl, hi⟩

/-- Settles O2: the other direction of the same equivalence. -/
theorem encodeOfDecode : Obligations.EncodeOfDecode :=
  fun _ _ hw => decode_eq_ok_iff_encode.mp hw

/-- Settles O5: eleven words, decoded. -/
theorem sampleWordsDecode : Obligations.SampleWordsDecode := by
  unfold Obligations.SampleWordsDecode
  decide

/-! ### The printed map -/

/-- The row of an operation in terms of its opcode and format: all the bits that carry no operand are compared (R84). -/
def rowOf (op : Op) : OpcodeRow :=
  ⟨op, BitVec.allOnes 4 ++ (formatOf op).unusedMask, opcodeOf op ++ 0#12⟩

theorem eq_rowOf_of_mem {row : OpcodeRow} (h : row ∈ opcodeMap) : row = rowOf row.op := by
  have hall : ∀ r ∈ opcodeMap, r = rowOf r.op := by decide
  exact hall row h

/-- A row selects the words that have its operation's opcode and fit its format. -/
theorem rowOf_selects_iff {w : CmdWord} {op : Op} :
    w &&& (rowOf op).mask = (rowOf op).value ↔ opField w = opcodeOf op ∧ (formatOf op).fits w = true := by
  conv_lhs => rw [← opField_append_argField w]
  rw [rowOf, BitVec.and_append, append_eq_append_iff, BitVec.and_allOnes, and_unusedMask_eq_zero]

theorem selects_iff_decodes {w : CmdWord} {row : OpcodeRow} (h : row ∈ opcodeMap) :
    w &&& row.mask = row.value ↔ ∃ i, decode w = .ok i ∧ i.op = row.op := by
  rw [exists_decode_eq_ok_iff, ← rowOf_selects_iff, ← eq_rowOf_of_mem h]

/-- Two rows that select the same word are those of the operation the word decodes to, so they are one row. -/
theorem eq_of_select_same_word {w : CmdWord} {r q : OpcodeRow} (hr : r ∈ opcodeMap) (hq : q ∈ opcodeMap)
    (hwr : w &&& r.mask = r.value) (hwq : w &&& q.mask = q.value) : r = q := by
  obtain ⟨i, hi, hir⟩ := (selects_iff_decodes hr).mp hwr
  obtain ⟨j, hj, hjq⟩ := (selects_iff_decodes hq).mp hwq
  cases hi.symm.trans hj
  rw [eq_rowOf_of_mem hr, eq_rowOf_of_mem hq, ← hir, ← hjq]

theorem toNat_encode (i : Instr) : (encode i).toNat = 4096 * (opcodeOf i.op).toNat + (encodeArg i).toNat :=
  toNat_append_eq_add _ _

/-- Settles O3: a row selects the words that decode to its operation, so two that select one word are one row; the
column Word is the encoder, read as numbers. -/
theorem maskAndMatchSelect : Obligations.MaskAndMatchSelect := by
  refine ⟨fun _ _ h => selects_iff_decodes h, fun op => ?_, fun _ _ hr _ hq => eq_of_select_same_word hr hq, rfl,
    fun e => ?_, fun v => ?_, fun p n hn => ?_⟩
  · cases op <;> simp [opcodeMap]
  · cases e <;> decide
  · have harg : (encodeArg (.sendByte v)).toNat = v.toNat := (toNat_append_eq_add 0#4 v).trans (by simp)
    rw [toNat_encode, harg]
    rfl
  · have harg : (encodeArg (.sendBuffer p n)).toNat = 2048 * p.toNat + n :=
      (toNat_append_eq_add (BitVec.ofBool p) (BitVec.ofNat 11 n)).trans (by simp [Nat.mod_eq_of_lt hn])
    rw [toNat_encode, toNat_encode, show encodeArg (.getBuffer p n) = encodeArg (.sendBuffer p n) from rfl, harg]
    simp [Instr.op, opcodeOf, Nat.add_assoc]

/-! ### Illegal words and the step of a command -/

/-- A word that does not decode is rejected by name, with the word (R85). -/
theorem decode_eq_error_of_not_ok {w : CmdWord} (h : ∀ i, decode w ≠ .ok i) :
    decode w = .error (.illegalCommand w) := by
  obtain ⟨op, hop⟩ | hunused := opField_cases w
  · rw [decode_of_opcode hop] at h ⊢
    split_ifs at h ⊢
    · exact absurd rfl (h _)
    · rfl
  · exact decode_of_unused_opcode hunused

/-- The words rejected as illegal: those of an unused opcode, and those with a bit set that their format leaves
unused (R85). -/
theorem decode_eq_error_iff (w : CmdWord) :
    decode w = .error (.illegalCommand w) ↔
      (opField w = 0xE#4 ∨ opField w = 0xF#4) ∨
      (opField w ∈ [0x0#4, 0x1#4, 0x2#4, 0x3#4, 0x4#4, 0x5#4, 0x8#4, 0x9#4, 0xC#4] ∧ argField w ≠ 0#12) ∨
      (opField w ∈ [0x6#4, 0x7#4] ∧ w.extractLsb' 1 11 ≠ 0#11) ∨
      (opField w = 0xA#4 ∧ w.extractLsb' 8 4 ≠ 0#4) := by
  obtain ⟨op, hop⟩ | hunused := opField_cases w
  · rw [decode_of_opcode hop, hop]
    cases op <;> simp [formatOf, opcodeOf, ArgFormat.fits]
  · simp [decode_of_unused_opcode hunused, hunused]

end Sys2Proof

namespace Sys2Proof.Machine

/-- A command whose word decodes is its instruction, in the state the command is taken from (R88, R91). -/
theorem step_command_of_decode {s : State} {w : CmdWord} {rest : List Input} {i : Instr}
    (hi : s.inputs = .command w :: rest) (hw : decode w = .ok i) : step s = exec i { s with inputs := rest } := by
  simp [step, takeCommand, hi, hw]

/-- A command whose word is illegal is answered and changes nothing else (R85, R87). -/
theorem step_command_of_illegal {s : State} {w : CmdWord} {rest : List Input}
    (hi : s.inputs = .command w :: rest) (hw : ∀ i, decode w ≠ .ok i) :
    step s = .next (respond (.illegalCommand w) 0x00#8 { s with inputs := rest }) := by
  simp [step, takeCommand, hi, decode_eq_error_of_not_ok hw, raiseIllegalCommand]

/-- Settles O4: the four classes, by the operation of the opcode; the answer is that of `step_command_of_illegal`. -/
theorem illegalWords : Obligations.IllegalWords :=
  ⟨decode_eq_error_iff, fun _ _ _ hi hw => step_command_of_illegal hi hw, fun _ => rfl⟩

/-- Settles O6: nothing is added around `exec`. -/
theorem stepRunsTheCommand : Obligations.StepRunsTheCommand :=
  fun _ _ _ _ hi hw => step_command_of_decode hi hw

end Sys2Proof.Machine

/-!
PROOFS. No operation is refused (30_encoding.md R80; 60_exceptions.md 1): shown part by part, along the way an
operation is put together.
-/

namespace Sys2Proof.Machine

/-- The outcome is a next state or a violation. -/
def Answered (r : Result) : Prop := ∀ x, r ≠ .refused x

theorem answered_next {s : State} : Answered (.next s) := nofun

theorem answered_fault {f : Fault} : Answered (.fault f) := nofun

theorem Answered.andNext {r : Result} {k : State → Result} (hr : Answered r) (hk : ∀ s, Answered (k s)) :
    Answered (andNext r k) := by
  intro x h
  obtain h | ⟨s, -, h⟩ := andNext_eq_refused.mp h
  · exact hr x h
  · exact hk s x h

theorem Answered.ite {c : Prop} [Decidable c] {r q : Result} (hr : Answered r) (hq : Answered q) :
    Answered (if c then r else q) := by
  split_ifs
  · exact hr
  · exact hq

theorem answered_repeatStep {f : State → Result} (hf : ∀ s, Answered (f s)) {n : Nat} {s : State} :
    Answered (repeatStep n f s) := by
  induction n generalizing s with
  | zero => exact answered_next
  | succ n ih => exact (hf s).andNext fun _ => ih

theorem answered_pinWrite {op : Op} {l : Line} {v : Level} {s : State} : Answered (pinWrite op l v s) :=
  answered_next.ite answered_fault

theorem answered_shiftOutByte {op : Op} {v : Byte} {s : State} : Answered (shiftOutByte op v s) :=
  answered_repeatStep fun _ => answered_pinWrite.andNext fun _ => answered_pinWrite.andNext fun _ =>
    answered_pinWrite.andNext fun _ => answered_next

theorem answered_shiftInByte {op : Op} {s : State} : Answered (shiftInByte op s) :=
  answered_repeatStep fun _ => answered_pinWrite.andNext fun _ => answered_pinWrite.andNext fun _ => answered_next

theorem answered_sendElement (s : State) : Answered (sendElement s) := by
  rw [sendElement]
  cases memRead s.tx s.idx with
  | none => exact answered_fault
  | some v => exact answered_shiftOutByte.andNext fun _ => answered_next

theorem answered_getElement (s : State) : Answered (getElement s) :=
  answered_shiftInByte.andNext fun _ => answered_next

/-- Every operation answers in every state (R80). -/
theorem answered_exec (i : Instr) (s : State) : Answered (exec i s) := by
  cases i with
  | init | disable => exact answered_next.ite answered_fault
  | suspend | resume | endSend => exact (answered_pinWrite.andNext fun _ => answered_next).ite answered_fault
  | dataReady | fieldPresent | setWakeOnField e | setWakeOnDataReady e => exact answered_next
  | beginSend => exact ((answered_pinWrite.andNext fun _ => answered_next).ite answered_fault).ite answered_fault
  | sendByte v => exact (answered_shiftOutByte.andNext fun _ => answered_next).ite answered_fault
  | sendBuffer p len =>
    exact (((answered_repeatStep answered_sendElement).andNext fun _ => answered_next).ite answered_fault).ite
      answered_next
  | getByte =>
    exact ((answered_shiftInByte.andNext fun _ => answered_next).ite answered_fault).ite answered_fault
  | getBuffer p len =>
    exact ((((answered_repeatStep answered_getElement).andNext fun _ => answered_next).ite answered_fault).ite
      answered_fault).ite answered_next

/-- Settles O49: every operation answers with a next state or a violation. -/
theorem nothingIsRefused : Obligations.NothingIsRefused := answered_exec

end Sys2Proof.Machine

/-!
PROOFS. A buffer operation is its byte operation repeated (30_encoding.md R90): the run of the byte operations, one
after the other, beside the run of the buffer operation that `exec_sendBuffer_of_sending` and `exec_getBuffer_of_idle`
give.
-/

namespace Sys2Proof.Machine

/-- `sendByte` of each byte in turn: the events of the bytes and nothing in between, sixteen microseconds each. -/
theorem sendAll_of_sending (v : Byte) (bytes : List Byte) (s : State) (hd : s.dir.dat = .output)
    (hc : s.dir.clk = .output) :
    ∃ u, sendAll (v :: bytes) s = .next u ∧ u = { withEvents (sendBufferEvents s.now (v :: bytes)) s with
      lat := { s.lat with clk := true, dat := ((v :: bytes).getLastD v).getLsbD 0 }
      now := s.now + 16 * (v :: bytes).length
      responses := u.responses, sr := u.sr, bitcnt := u.bitcnt, fresh := u.fresh } := by
  induction bytes generalizing v s with
  | nil =>
    refine ⟨_, by rw [sendAll, exec_sendByte_of_sending v hd hc]; rfl, ?_⟩
    simp [sendBufferEvents, withEvents, respond, releaseByteRegs]
  | cons w rest ih =>
    rw [sendAll, exec_sendByte_of_sending v hd hc, andNext_next]
    obtain ⟨u, hu, heq⟩ := ih w (respond .ok 0#8 (releaseByteRegs { withEvents (sendByteEvents s.now v) s with
      lat := { s.lat with clk := true, dat := v.getLsbD 0 }, now := s.now + 16 })) hd hc
    refine ⟨u, hu, heq.trans ?_⟩
    simp [sendBufferEvents, withEvents, weave_append, List.getLast?_cons]
    omega

/-- The answers of `n` `getByte`s, `bits` being the samples in time order (R87, R155). -/
def byteAnswers (bits : Nat → Level) (n : Nat) : List Response :=
  (List.range n).map fun k => ⟨.ok, byteOf fun j => bits (8 * k + j)⟩

theorem byteAnswers_succ (bits : Nat → Level) (n : Nat) :
    byteAnswers bits (n + 1) = ⟨.ok, byteOf bits⟩ :: byteAnswers (fun j => bits (8 + j)) n := by
  have hj : ∀ k j, 8 + (8 * k + j) = 8 * (k + 1) + j := by omega
  simp [byteAnswers, List.range_succ_eq_map, hj]

/-- `getByte`, again and again: the events of the bytes and nothing in between, sixteen microseconds each, and an answer
for each. -/
theorem getAll_of_idle (n : Nat) (s : State) (hc : s.dir.clk = .output) (hd : s.dir.dat = .input) :
    ∃ u, getAll (n + 1) s = .next u ∧
      u = { withEvents (getBufferEvents s.now (levelAt s) (n + 1)) (afterDraws (8 * (n + 1)) s) with
        lat := { s.lat with clk := true }
        now := s.now + 16 * (n + 1)
        responses := s.responses ++ byteAnswers (levelAt s) (n + 1)
        sr := u.sr, bitcnt := u.bitcnt, fresh := u.fresh } := by
  induction n generalizing s with
  | zero =>
    refine ⟨_, by rw [getAll, exec_getByte_of_idle hc hd]; rfl, ?_⟩
    simp [getBufferEvents, withEvents, respond, releaseByteRegs, byteAnswers]
  | succ n ih =>
    rw [getAll, exec_getByte_of_idle hc hd, andNext_next]
    obtain ⟨u, hu, heq⟩ := ih (respond .ok (byteOf (levelAt s)) (releaseByteRegs
      { withEvents (getByteEvents s.now (levelAt s)) (afterDraws 8 s) with
        lat := { s.lat with clk := true }, now := s.now + 16 })) hc hd
    refine ⟨u, hu, heq.trans ?_⟩
    rw [byteAnswers_succ _ (n + 1)]
    simp [withEvents, weave_append, getBufferEvents, levelAt_eq, afterDraws, levelFrom_drop_eq, fresh_stages]
    omega

/-- Settles O36: the two runs append the same events, in the same time, and leave the same latches. -/
theorem sendBufferIsRepeatedSendByte : Obligations.SendBufferIsRepeatedSendByte := by
  intro s bytes hne hm hd hc
  cases bytes with
  | nil => exact absurd rfl hne
  | cons v rest =>
    obtain ⟨u, hu, heq⟩ := sendAll_of_sending v rest s hd hc
    exact ⟨_, u, exec_sendBuffer_of_sending v rest hm hd hc, hu, by rw [heq]; rfl⟩

/-- Settles O37: the two runs append the same events, in the same time, and element `k` is the byte of the samples that
answer `k` is the byte of. -/
theorem getBufferIsRepeatedGetByte : Obligations.GetBufferIsRepeatedGetByte := by
  intro s len hl hc hd
  obtain ⟨n, rfl⟩ := Nat.exists_eq_succ_of_ne_zero hl
  obtain ⟨u, hu, heq⟩ := getAll_of_idle n s hc hd
  refine ⟨_, u, exec_getBuffer_of_idle hl hc hd, hu, by rw [heq]; rfl, fun k hk => ?_⟩
  have hstored := memRead_storeBytes (n + 1) s.rx 0 (levelAt s) k hk
  have hanswer : u.responses[s.responses.length + k]? = some ⟨.ok, byteOf fun j => levelAt s (8 * k + j)⟩ := by
    rw [heq]
    simp [byteAnswers, hk]
  rw [hanswer]
  simpa using hstored

end Sys2Proof.Machine

/-!
PROOFS. The micro-operations that write no latch, namely `PinDir`, `PinRead` and `Delay`
(40_pin_and_timing_primitives.md R100, R102, R103), and what R100 means for the lifecycle: a latch outlives the direction
of its line.
-/

namespace Sys2Proof.Machine

/-- The pad of an input shows the environment's level (R23). -/
theorem pad_input {s : State} {l : Line} (hdir : s.dir.get l = .input) (ext : Lines Level) : pad s ext l = ext.get l := by
  simp [pad, hdir]

/-! ### The micro-operations -/

/-- Settles O40: the direction written is the line's own, and the pad is read off it with the latch untouched. -/
theorem pinDirAssertsNoLevel : Obligations.PinDirAssertsNoLevel := by
  intro s l d
  rw [pinDir_eq]
  have hsame := lines_get_set_same s.dir l d
  refine ⟨rfl, hsame, fun k hk => lines_get_set_other s.dir d hk, fun ext => ?_⟩
  cases d with
  | input => exact pad_input hsame ext
  | output => exact pad_output hsame rfl ext

/-- Settles O42: an output gives its latch; an input uses up one level, so a second read finds the one after it. -/
theorem pinReadSamplesTheLine : Obligations.PinReadSamplesTheLine := by
  intro s l
  refine ⟨pinRead_output l s, fun hi => ⟨pinRead_input l s hi, ?_⟩⟩
  rw [pinRead_input l s hi, pinRead_input l (withEvents _ (afterDraws 1 s)) hi]
  exact levelAt_afterDraws 0 1 s

/-- Settles O43: time and the events move on, while directions, latches and the levels to come stay. -/
theorem delayAdvancesTime : Obligations.DelayAdvancesTime := by
  intro s n
  rw [delay_eq]
  exact ⟨rfl, fun ext l => pad_congr rfl rfl ext, rfl⟩

/-! ### Latches across `disable` and `init` -/

/-- Settles O12: neither operation writes a latch, and the second drives again the three lines that the first gave up. -/
theorem levelsOutliveDisable : Obligations.LevelsOutliveDisable := by
  intro s hd
  refine ⟨_, _, exec_disable_of_idle hd, exec_init_of_idle hd, rfl, rfl, rfl, fun ext => ?_⟩
  exact ⟨pad_input rfl ext, pad_output rfl rfl ext, pad_output rfl rfl ext, pad_output rfl rfl ext⟩

end Sys2Proof.Machine

/-!
PROOFS. The lifecycle operations (41_lifecycle.md R120, R121): what `init` and `disable` leave while Idle, and their
violation while Sending (92_eei_decisions.md D7).
-/

namespace Sys2Proof.Machine

/-! ### The violation while Sending -/

theorem exec_init_of_sending {s : State} (hd : s.dir.dat = .output) :
    exec .init s = .fault (.notIdle .init s.trace) := by
  simp [exec, execInit, hd]

theorem exec_disable_of_sending {s : State} (hd : s.dir.dat = .output) :
    exec .disable s = .fault (.notIdle .disable s.trace) := by
  simp [exec, execDisable, hd]

/-! ### The two operations -/

/-- Settles O10: the six events in the model's own order are one of the orders that D6 allows. -/
theorem initTakesTheBus : Obligations.InitTakesTheBus := by
  refine ⟨fun s hd => ⟨initEvents s.now, .refl _, ?_⟩, fun _ => exec_init_of_sending, rfl⟩
  exact exec_init_of_idle hd

/-- Settles O11: the three events in the model's own order are one of the orders that D6 allows. -/
theorem disableGivesUpTheBus : Obligations.DisableGivesUpTheBus := by
  refine ⟨fun s hd => ⟨disableEvents s.now, .refl _, ?_⟩, fun _ => exec_disable_of_sending, rfl⟩
  exact exec_disable_of_idle hd

end Sys2Proof.Machine

/-!
PROOFS. The power operations and the queries (42_power_session.md R130 to R133): what each leaves, and the violation of
the two that drive `PWR` while it is an input (92_eei_decisions.md D8).
-/

namespace Sys2Proof.Machine

/-! ### The violation while `PWR` is an input -/

theorem exec_suspend_of_input {s : State} (hp : s.dir.pwr = .input) :
    exec .suspend s = .fault (.notEnabled .suspend s.trace) := by
  simp [exec, execSuspend, hp]

theorem exec_resume_of_input {s : State} (hp : s.dir.pwr = .input) :
    exec .resume s = .fault (.notEnabled .resume s.trace) := by
  simp [exec, execResume, hp]

/-! ### The four operations -/

/-- Settles O13: the direction of `PWR` alone decides, so Idle and Sending are one case (D30). -/
theorem suspendDrivesPowerLow : Obligations.SuspendDrivesPowerLow :=
  ⟨fun _ => exec_suspend_of_driven, fun _ => exec_suspend_of_input, rfl⟩

/-- Settles O14: the direction of `PWR` alone decides, so Idle and Sending are one case (D30). -/
theorem resumeDrivesPowerHighAndWaits : Obligations.ResumeDrivesPowerHighAndWaits :=
  ⟨fun _ => exec_resume_of_driven, fun _ => exec_resume_of_input, rfl⟩

/-- Settles O15: `IRQ`, an input, shows the environment's next level, and the answer is that level. -/
theorem dataReadyReadsTheLine : Obligations.DataReadyReadsTheLine :=
  ⟨fun s hi => exec_dataReady_of_samples (pinRead_input .irq s hi), rfl⟩

/-- Settles O16: `FD`, an input, shows the environment's next level, and the answer is its negation. -/
theorem fieldPresentReadsActiveLow : Obligations.FieldPresentReadsActiveLow := by
  refine ⟨fun s hi => ?_, rfl⟩
  have hrun := exec_fieldPresent_of_samples (pinRead_input .fd s hi)
  simp only [Bool.not_eq_true'] at hrun
  exact hrun

end Sys2Proof.Machine

/-!
PROOFS. The two wake operations (42_power_session.md R134 to R136): what `setWake` makes of the flags, case by case for
both sources at once, and what a step makes of them.
-/

namespace Sys2Proof.Machine

/-! ### The wake flags after a wake operation -/

@[simp] theorem withMask_gie (src : WakeSource) (v : Bool) (w : WakeFlags) : (withMask src v w).gie = w.gie := by
  cases src <;> rfl

section Flags
variable {w : WakeFlags} {c : BitVec 2} (src : WakeSource)

/-- The default block (R134, R135): enabling sets the mask bit and the shared enable. -/
theorem setWake_true_default (hc : w.cnt = none) :
    setWake src true w = { withMask src true w with gie := true } := by
  simp [setWake, hc, setWakeDefault]

/-- The default block (R134, R135): disabling clears the mask bit alone. -/
theorem setWake_false_default (hc : w.cnt = none) : setWake src false w = withMask src false w := by
  simp [setWake, hc, setWakeDefault]

/-- The variant (R136): a mask bit that comes to be set counts. -/
theorem setWake_true_of_unmasked (hc : w.cnt = some c) (hm : maskOf src w = false) :
    setWake src true w = { withMask src true w with cnt := some (c + 1), gie := true } := by
  simp [setWake, hc, setWakeCounted, hm]

/-- The variant (R136, D17): a mask bit that comes to be cleared counts, and the last one takes the shared enable with
it. -/
theorem setWake_false_of_masked (hc : w.cnt = some c) (hm : maskOf src w = true) :
    setWake src false w =
      { withMask src false w with cnt := some (c - 1), gie := if c = 1#2 then false else w.gie } := by
  have hlast : c - 1#2 = 0#2 ↔ c = 1#2 := sub_eq_zero
  simp [setWake, hc, setWakeCounted, hm, hlast]

/-- The variant (R136, D17): nothing changes where the mask bit already is as asked. -/
theorem setWake_of_maskOf_eq {e : Bool} (hc : w.cnt = some c) (hm : maskOf src w = e) : setWake src e w = w := by
  cases e <;> simp [setWake, hc, setWakeCounted, hm]

end Flags

/-- In the default block a wake operation leaves a shared enable that is set as it is (R134, R135). -/
theorem setWake_gie_default {w : WakeFlags} (hc : w.cnt = none) (hg : w.gie = true) (src : WakeSource) (e : Bool) :
    (setWake src e w).gie = true := by
  cases e with
  | true => rw [setWake_true_default src hc]
  | false => rw [setWake_false_default src hc, withMask_gie, hg]

/-! ### The two operations -/

/-- The wake operation of a source (R134, R135). -/
def wakeInstr (src : WakeSource) (e : Bool) : Instr :=
  match src with
  | .fd => .setWakeOnField e
  | .dr => .setWakeOnDataReady e

/-- A wake operation completes in every state, and touches nothing but the flags (R134, R135). -/
theorem exec_wakeInstr {src : WakeSource} {e : Bool} {s : State} {w : WakeFlags} (hw : setWake src e s.wk = w) :
    exec (wakeInstr src e) s = .next (respond .ok 0#8 { s with wk := w }) := by
  subst hw
  cases src <;> rfl

/-- Settles O17: the two rows of the default rule, for `FD`. -/
theorem setWakeOnFieldDefault : Obligations.SetWakeOnFieldDefault :=
  ⟨fun _ hc => ⟨exec_wakeInstr (setWake_true_default .fd hc), exec_wakeInstr (setWake_false_default .fd hc)⟩, rfl, rfl⟩

/-- Settles O18: the two rows of the default rule, for `DR`. -/
theorem setWakeOnDataReadyDefault : Obligations.SetWakeOnDataReadyDefault :=
  ⟨fun _ hc => ⟨exec_wakeInstr (setWake_true_default .dr hc), exec_wakeInstr (setWake_false_default .dr hc)⟩, rfl, rfl⟩

/-- Settles O19: for either source, a change of the mask bit up, none, a change down, none. -/
theorem countedWakeOperations : Obligations.CountedWakeOperations := by
  intro s c hc
  refine ⟨fun hm => ?_, fun hm => ?_, fun hm => ?_, fun hm => ?_, fun hm => ?_, fun hm => ?_, fun hm => ?_, fun hm => ?_⟩
  · exact exec_wakeInstr (setWake_true_of_unmasked .fd hc hm)
  · exact exec_wakeInstr (setWake_of_maskOf_eq .fd hc hm)
  · exact exec_wakeInstr (setWake_false_of_masked .fd hc hm)
  · exact exec_wakeInstr (setWake_of_maskOf_eq .fd hc hm)
  · exact exec_wakeInstr (setWake_true_of_unmasked .dr hc hm)
  · exact exec_wakeInstr (setWake_of_maskOf_eq .dr hc hm)
  · exact exec_wakeInstr (setWake_false_of_masked .dr hc hm)
  · exact exec_wakeInstr (setWake_of_maskOf_eq .dr hc hm)

/-! ### The wake flags after a step -/

/-- A cut operation leaves the flags as after reset, in the same variant (R40, R42). -/
theorem execCut_wk {i : Instr} {n : Nat} {s t : State} (h : execCut i n s = .next t) :
    t.wk = (State.resetWith s.wk.cnt.isSome).wk := by
  obtain ⟨-, rfl⟩ | ⟨u, hu, rfl⟩ := execCut_cases h
  · rfl
  · rw [resetBlock_wk, (exec_eq_next.mp hu).cnt_isSome]

/-- The wake flags after a step: as before, what a wake operation makes of them, or those of a reset (R43). -/
theorem step_wk_cases {s t : State} (h : step s = .next t) :
    t.wk = s.wk ∨ (∃ src e, t.wk = setWake src e s.wk) ∨
      nextResets s = true ∧ t.wk = (State.resetWith s.wk.cnt.isSome).wk := by
  obtain ⟨w, rest, i, -, -, hx⟩ | ⟨w, rest, -, rfl⟩ | ⟨a, b, rest, -, rfl⟩ | ⟨src, rest, -, rfl⟩ | ⟨rest, hi, rfl⟩ |
    ⟨w, n, rest, hi, rfl | ⟨i, -, hx⟩⟩ | ⟨-, rfl⟩ := step_cases h
  · obtain hk | ⟨-, hset⟩ := (exec_eq_next.mp hx).wk_cases
    · exact .inl hk
    · exact .inr (.inl hset)
  · exact .inl rfl
  · exact .inl rfl
  · exact .inl (by rw [watch_eq])
  · exact .inr (.inr ⟨by simp [nextResets, hi], rfl⟩)
  · exact .inr (.inr ⟨by simp [nextResets, hi], rfl⟩)
  · exact .inr (.inr ⟨by simp [nextResets, hi], execCut_wk (s := { s with inputs := rest }) hx⟩)
  · exact .inl rfl

/-- No step makes one variant into the other (R42). -/
theorem step_cnt_isSome {s t : State} (h : step s = .next t) : t.wk.cnt.isSome = s.wk.cnt.isSome := by
  obtain hk | ⟨src, e, hk⟩ | ⟨-, hk⟩ := step_wk_cases h
  · rw [hk]
  · rw [hk, setWake_cnt_isSome]
  · rw [hk, resetWith_cnt]
    cases s.wk.cnt.isSome <;> rfl

/-- In the default block only a reset clears the shared enable (R41 (f)). -/
theorem step_gie_default {s t : State} (hc : s.wk.cnt = none) (hg : s.wk.gie = true) (hr : nextResets s = false)
    (h : step s = .next t) : t.wk.gie = true := by
  obtain hk | ⟨src, e, hk⟩ | ⟨hreset, -⟩ := step_wk_cases h
  · rw [hk, hg]
  · rw [hk, setWake_gie_default hc hg]
  · simp [hr] at hreset

/-- Settles O20: every step keeps the variant, and only the wake operations move the flags, which leave `GIE` set. -/
theorem sharedEnableStaysSet : Obligations.SharedEnableStaysSet := by
  intro s t hc h
  have hvariant := step_cnt_isSome h
  rw [hc] at hvariant
  exact ⟨Option.isNone_iff_eq_none.mp (by simpa using hvariant), fun hg hr => step_gie_default hc hg hr h⟩

end Sys2Proof.Machine

/-!
PROOFS. The family 43_transfer.md: what `beginSend`, `endSend`, `sendByte` and `getByte` leave and when each is a
violation (R151 to R155), the empty pair (R214), a transmit buffer that is too short (R154), loop back (R157), and over all
operations the idle level of `CLK` (R161) and the table of durations and event counts (R162).
-/

namespace Sys2Proof.Machine

/-! ### The violations by direction -/

theorem exec_beginSend_of_input {s : State} (hs : s.dir.sel = .input) :
    exec .beginSend s = .fault (.notEnabled .beginSend s.trace) := by
  simp [exec, execBeginSend, hs]

theorem exec_beginSend_of_sending {s : State} (hs : s.dir.sel = .output) (hd : s.dir.dat = .output) :
    exec .beginSend s = .fault (.notIdle .beginSend s.trace) := by
  simp [exec, execBeginSend, hs, hd]

theorem exec_endSend_of_idle {s : State} (hd : s.dir.dat = .input) :
    exec .endSend s = .fault (.notSending .endSend s.trace) := by
  simp [exec, execEndSend, hd]

theorem exec_sendByte_of_idle {s : State} (v : Byte) (hd : s.dir.dat = .input) :
    exec (.sendByte v) s = .fault (.notSending .sendByte s.trace) := by
  simp [exec, execSendByte, hd]

theorem exec_getByte_of_input {s : State} (hc : s.dir.clk = .input) :
    exec .getByte s = .fault (.notEnabled .getByte s.trace) := by
  simp [exec, execGetByte, hc]

theorem exec_getByte_of_sending {s : State} (hc : s.dir.clk = .output) (hd : s.dir.dat = .output) :
    exec .getByte s = .fault (.notIdle .getByte s.trace) := by
  simp [exec, execGetByte, hc, hd]

/-! ### The operations on one byte and on the bus -/

/-- The word of `sendByte` is its opcode with the byte in the low bits (R83). -/
theorem encode_sendByte (v : Byte) : encode (.sendByte v) = 0xA000#16 + v.setWidth 16 := by
  obtain ⟨-, -, -, -, -, hword, -⟩ := maskAndMatchSelect
  have hv := v.isLt
  apply BitVec.eq_of_toNat_eq
  rw [hword, BitVec.toNat_add, BitVec.toNat_setWidth, BitVec.toNat_ofNat]
  omega

/-- Settles O23: `SEL` is tested before `DAT`, so each pair of their directions falls under one clause. -/
theorem beginSendTurnsTheBus : Obligations.BeginSendTurnsTheBus :=
  ⟨fun _ => exec_beginSend_of_idle, fun _ => exec_beginSend_of_input, fun _ => exec_beginSend_of_sending, rfl⟩

/-- Settles O24: with `DAT` an output the write of `SEL` at the end meets an output too. -/
theorem endSendReleasesTheBus : Obligations.EndSendReleasesTheBus :=
  ⟨fun _ => exec_endSend_of_sending, fun _ => exec_endSend_of_idle, rfl⟩

/-- Settles O26: the run of `exec_sendByte_of_sending`, whose working registers are left open. -/
theorem sendByteShiftsOut : Obligations.SendByteShiftsOut :=
  ⟨fun _ v hd hc => ⟨_, exec_sendByte_of_sending v hd hc, rfl⟩, fun _ v => exec_sendByte_of_idle v,
    encode_sendByte⟩

/-- Settles O32: the run of `exec_getByte_of_idle`, whose working registers are left open. -/
theorem getByteShiftsIn : Obligations.GetByteShiftsIn :=
  ⟨fun _ hc hd => ⟨_, exec_getByte_of_idle hc hd, rfl⟩, fun _ => exec_getByte_of_input,
    fun _ => exec_getByte_of_sending, rfl⟩

/-! ### How many events are the block's own -/

/-- Weaving wake events in changes nothing of the block's own events. -/
theorem ownEvents_weave_eq (w : WakeFlags) (ch : List (List WakeSource)) (evs : List Stamped) :
    ownEvents (weave w ch evs) = ownEvents evs := by
  rw [ownEvents, ownEvents, ← List.filterMap_eq_filter]
  exact filterMap_weave (fun _ _ => rfl) w ch evs

theorem ownEvents_append (x y : List Stamped) : ownEvents (x ++ y) = ownEvents x ++ ownEvents y :=
  List.filter_append ..

theorem length_ownEvents_sendBufferEvents (t : Nat) (bytes : List Byte) :
    (ownEvents (sendBufferEvents t bytes)).length = 40 * bytes.length := by
  induction bytes generalizing t with
  | nil => rfl
  | cons v rest ih =>
    have hbyte : (ownEvents (sendByteEvents t v)).length = 40 := rfl
    rw [sendBufferEvents, ownEvents_append, List.length_append, hbyte, ih, List.length_cons]
    omega

theorem length_ownEvents_getBufferEvents (t : Nat) (bits : Nat → Level) (n : Nat) :
    (ownEvents (getBufferEvents t bits n)).length = 40 * n := by
  induction n generalizing t bits with
  | zero => rfl
  | succ n ih =>
    have hbyte : (ownEvents (getByteEvents t bits)).length = 40 := rfl
    rw [getBufferEvents, ownEvents_append, List.length_append, hbyte, ih]
    omega

/-- Settles O25: the second operation undoes the direction that the first wrote, and raises the latch that it
lowered. -/
theorem emptyPairSetsSelect : Obligations.EmptyPairSetsSelect := by
  intro s hs hd
  have hdir : { s.dir with dat := .input } = s.dir := by rw [← hd]
  refine ⟨_, _, exec_beginSend_of_idle hs hd, exec_endSend_of_sending rfl hs, hdir, rfl, rfl, _,
    List.append_assoc .., ?_⟩
  rw [ownEvents_append, ownEvents_weave_eq, ownEvents_weave_eq]
  rfl

/-! ### A transmit buffer that is too short -/

theorem andNext_assoc (r : Result) (k l : State → Result) :
    andNext (andNext r k) l = andNext r fun s => andNext (k s) l := by
  cases r <;> rfl

/-- A repetition in two stages. -/
theorem repeatStep_add (m n : Nat) (f : State → Result) (s : State) :
    repeatStep (m + n) f s = andNext (repeatStep m f s) (repeatStep n f) := by
  induction m generalizing s with
  | zero => rw [Nat.zero_add]; rfl
  | succ m ih =>
    rw [Nat.add_right_comm, repeatStep_succ, repeatStep_succ, andNext_assoc]
    exact congrArg _ (funext ih)

/-- At a missing element `sendBuffer` stops, whatever number of elements is still to come (R154). -/
theorem repeatStep_sendElement_of_missing {s : State} (n : Nat) (hm : memRead s.tx s.idx = none) :
    repeatStep (n + 1) sendElement s = .fault (.bufferShort .sendBuffer s.trace) := by
  rw [repeatStep_succ, sendElement, hm]
  rfl

/-- Bytes sent from element 0 on, up to a missing element (R154). -/
theorem repeatStep_sendElement_short (bytes : List Byte) (n : Nat) (s : State)
    (hm : ∀ k, k < bytes.length → memRead s.tx k = bytes[k]?) (hn : memRead s.tx bytes.length = none)
    (hd : s.dir.dat = .output) (hc : s.dir.clk = .output) :
    repeatStep (bytes.length + (n + 1)) sendElement { s with idx := 0 } =
      .fault (.bufferShort .sendBuffer (s.trace ++ weave s.wk s.changes (sendBufferEvents s.now bytes))) := by
  rw [repeatStep_add]
  cases bytes with
  | nil => simp [repeatStep_sendElement_of_missing (s := { s with idx := 0 }) n hn, sendBufferEvents]
  | cons v rest =>
    rw [repeatStep_sendElement v rest { s with idx := 0 } hc hd (by simpa using hm), andNext_next,
      repeatStep_sendElement_of_missing]
    · rfl
    · simpa using hn

/-- Settles O29: the elements there are go out, and the next one is missing. -/
theorem sendBufferShortStops : Obligations.SendBufferShortStops := by
  intro s bytes len hlen hm hn hd hc
  obtain ⟨n, rfl⟩ : ∃ n, len = bytes.length + (n + 1) := Nat.exists_eq_add_of_lt hlen
  have ha : bufferArgOk true (bytes.length + (n + 1)) = true := bufferArgOk_eq_true.mpr ⟨rfl, by omega⟩
  simp only [exec, execSendBuffer, ha, hd, if_true]
  rw [repeatStep_sendElement_short bytes n s hm hn hd hc, andNext_fault]

/-! ### Loop back -/

theorem datWrites_weave (w : WakeFlags) (ch : List (List WakeSource)) (evs : List Stamped) :
    datWrites (weave w ch evs) = datWrites evs := filterMap_weave (fun _ _ => rfl) w ch evs

/-- Each bit sent writes `DAT` once. -/
theorem datWrites_bitsOut (t : Nat → Nat) (b : Nat → Level) (js : List Nat) :
    datWrites (js.flatMap fun j => bitOutEvents (t j) (b j)) = js.map b := by
  induction js with
  | nil => rfl
  | cons j js ih => exact congrArg (b j :: ·) ih

theorem datWrites_sendByteEvents (t : Nat) (v : Byte) :
    datWrites (sendByteEvents t v) = (List.range 8).map (wireBit v) := datWrites_bitsOut _ _ _

/-- A byte received depends on its eight samples only. -/
theorem byteOf_congr {b c : Nat → Level} (h : ∀ j, j < 8 → b j = c j) : byteOf b = byteOf c := by
  simp only [byteOf, h, Nat.reduceLT]

/-- The levels to come are the draws in hand, as long as there are any. -/
theorem levelAt_of_draws {s : State} {n : Nat} {b : Nat → Level} {rest : List Level}
    (hdraws : s.draws = (List.range n).map b ++ rest) {j : Nat} (hj : j < n) : levelAt s j = b j := by
  simp [levelAt, levelFrom, hdraws, List.getElem?_append_left, hj]

/-- Settles O35: the eight levels on `DAT` are the bits of the byte, and the receive law makes that byte of them. -/
theorem loopBackReturnsTheByte : Obligations.LoopBackReturnsTheByte := by
  intro s r v rest hsd hsc hrc hrd
  refine ⟨_, _, exec_sendByte_of_sending v hsd hsc, rfl, fun hdraws => ?_⟩
  rw [datWrites_weave, datWrites_sendByteEvents] at hdraws
  have hbyte : byteOf (levelAt r) = v :=
    (byteOf_congr fun _ hj => levelAt_of_draws hdraws hj).trans (byteOf_wireBit v)
  refine ⟨_, exec_getByte_of_idle hrc hrd, ?_, ?_⟩
  · rw [hbyte]
    rfl
  · simp [hdraws]

/-! ### Every operation -/

@[simp] theorem answeredOk_respond (st : Status) (v : Byte) (s : State) :
    answeredOk (respond st v s) = decide (st = .ok) := by
  simp [answeredOk]

/-- Settles O38: the four operations that shift bytes end with `CLK` high unless their argument is bad, and no other
branch writes that latch. -/
theorem clockIdlesHigh : Obligations.ClockIdlesHigh := by
  intro i s t h
  cases exec_eq_next.mp h with
  | sendByte | sendBuffer | getByte | getBuffer => simp [shifts]
  | sendBufferBadArgument | getBufferBadArgument => simp
  | _ => simp [shifts]

/-- An operation that completes either answers `Ok` or changes nothing but the response port (R181, R187). -/
theorem Completes.ok_or_refuses_argument {i : Instr} {s t : State} (h : Completes s i t) :
    answeredOk t = true ∨ answeredOk t = false ∧ t.now = s.now ∧ t.trace = s.trace := by
  cases h with
  | sendBufferBadArgument | getBufferBadArgument => exact .inr ⟨by simp, rfl, rfl⟩
  | _ => exact .inl (by simp)

/-- The time and the number of own events of an operation that answers `Ok` (R162). -/
theorem Completes.durationOf_eventCountOf {i : Instr} {s t : State} (h : Completes s i t) (hok : answeredOk t = true) :
    t.now = s.now + durationOf i ∧
      ∃ evs, t.trace = s.trace ++ weave s.wk s.changes evs ∧ (ownEvents evs).length = eventCountOf i := by
  cases h with
  | sendBufferBadArgument | getBufferBadArgument => simp at hok
  | setWakeOnField | setWakeOnDataReady => exact ⟨rfl, [], by simp, rfl⟩
  | sendBuffer v bytes len hl =>
    exact ⟨rfl, _, rfl, by rw [length_ownEvents_sendBufferEvents, hl]; rfl⟩
  | getBuffer => exact ⟨rfl, _, rfl, length_ownEvents_getBufferEvents ..⟩
  | _ => exact ⟨rfl, _, rfl, rfl⟩

/-- Settles O39: the own events of a branch that answers `Ok` are counted, and a bad argument appends none. -/
theorem durationsAndEventCounts : Obligations.DurationsAndEventCounts := by
  intro i s t h
  have hcompletes := exec_eq_next.mp h
  obtain hok | ⟨hbad, hnow, htrace⟩ := hcompletes.ok_or_refuses_argument
  · obtain ⟨hnow, evs, htrace, hcount⟩ := hcompletes.durationOf_eventCountOf hok
    refine ⟨_, htrace, ?_⟩
    rw [if_pos hok, ownEvents_weave_eq]
    exact ⟨hnow, hcount⟩
  · refine ⟨[], by simpa using htrace, ?_⟩
    rw [if_neg (by simp [hbad])]
    exact ⟨hnow, rfl⟩

end Sys2Proof.Machine

/-!
PROOFS. The family 60_exceptions.md: the argument check of the buffer operations (R181), and over all operations that
under the invariant of the machine exactly the table of contract violations (R183) keeps an operation from completing.
-/

namespace Sys2Proof.Machine

/-! ### The argument check -/

/-- Only a buffer operation with a bad argument completes with a status other than `Ok` (R181, R187). -/
theorem Completes.badArgument_of_not_ok {i : Instr} {s t : State} (h : Completes s i t) (hok : answeredOk t = false) :
    ∃ p len, (p = false ∨ len = 0) ∧ (i = .sendBuffer p len ∨ i = .getBuffer p len) := by
  cases h with
  | sendBufferBadArgument p len ha => exact ⟨p, len, ha, .inl rfl⟩
  | getBufferBadArgument p len ha => exact ⟨p, len, ha, .inr rfl⟩
  | _ => simp at hok

/-- Settles O30: the argument check comes before any test of the state (D14), and every other completing branch answers
`Ok`. -/
theorem badArgumentsAreAnswered : Obligations.BadArgumentsAreAnswered :=
  ⟨fun s _ _ ha => ⟨exec_sendBuffer_of_badArgument s ha, exec_getBuffer_of_badArgument s ha⟩,
    fun _ _ _ h => (exec_eq_next.mp h).badArgument_of_not_ok, fun _ => rfl⟩

/-! ### The table of contract violations -/

/-- The other half of `dir_ne_output`. -/
theorem dir_ne_input {d : Dir} : d ≠ .input ↔ d = .output := by cases d <;> decide

/-- A buffer without a missing element below `n` holds `n` bytes from element 0 on (R52). -/
theorem exists_bytes_of_memRead_ne_none {m : Memory} {n : Nat} (h : ∀ k, k < n → memRead m k ≠ none) :
    ∃ bytes : List Byte, bytes.length = n ∧ ∀ k, k < n → memRead m k = bytes[k]? := by
  refine ⟨(List.range n).map fun k => (memRead m k).getD 0#8, by simp, fun k hk => ?_⟩
  obtain ⟨v, hv⟩ := Option.ne_none_iff_exists'.mp (h k hk)
  simp [hk, hv]

/-- Where the transmit buffer has all the elements asked for, `sendBuffer` completes while Sending (R154). -/
theorem exists_completes_sendBuffer {s : State} {len : Nat} (hlen : len ≠ 0) (hd : s.dir.dat = .output)
    (hc : s.dir.clk = .output) (hm : ∀ k, k < len → memRead s.tx k ≠ none) :
    ∃ t, Completes s (.sendBuffer true len) t := by
  obtain ⟨bytes, hl, hb⟩ := exists_bytes_of_memRead_ne_none hm
  cases bytes with
  | nil => exact absurd hl.symm hlen
  | cons v rest => exact ⟨_, .sendBuffer v rest len hl (hl ▸ hb) hd hc⟩

/-- An operation that completes is not in the table of R183: its branch needs the opposite directions, and of
`sendBuffer` every element. The table reads `SEL` where an operation may test `CLK` or `PWR`: by the invariant they have
one direction. -/
theorem Completes.not_violates {i : Instr} {s t : State} (h : Completes s i t) (hs : StateInv s) :
    ¬ Violates i s := by
  have hclk : s.dir.sel = s.dir.clk := hs.selClk
  have hpwr : s.dir.clk = s.dir.pwr := hs.clkPwr
  cases h with
  | init hd | disable hd | endSend hd | sendByte _ hd => simp [Violates, hd]
  | suspend hp | resume hp => simp [Violates, hclk, hpwr, hp]
  | dataReady | fieldPresent | setWakeOnField | setWakeOnDataReady => exact id
  | beginSend hsel hd => simp [Violates, hsel, hd]
  | getByte hc hd | getBuffer _ _ hc hd => simp [Violates, hclk, hc, hd]
  | sendBuffer v bytes len hl hm hd =>
    rintro ⟨-, -, hdat | ⟨k, hk, hnone⟩⟩
    · simp [hd] at hdat
    · rw [hm k (hl ▸ hk), List.getElem?_eq_none_iff] at hnone
      omega
  | sendBufferBadArgument p len ha | getBufferBadArgument p len ha =>
    rintro ⟨hp, hlen, -⟩
    exact ha.elim (by simp [hp]) hlen

/-- An operation that the table of R183 does not list completes: its precondition holds, and by the invariant every line
it drives is an output. -/
theorem exists_completes_of_not_violates {i : Instr} {s : State} (hs : StateInv s) (hv : ¬ Violates i s) :
    ∃ t, Completes s i t := by
  have hclk : s.dir.clk = s.dir.sel := hs.selClk.symm
  have hpwr : s.dir.pwr = s.dir.sel := hs.clkPwr.symm.trans hclk
  cases i with
  | init => exact ⟨_, .init (dir_ne_output.mp hv)⟩
  | disable => exact ⟨_, .disable (dir_ne_output.mp hv)⟩
  | suspend => exact ⟨_, .suspend (hpwr.trans (dir_ne_input.mp hv))⟩
  | resume => exact ⟨_, .resume (hpwr.trans (dir_ne_input.mp hv))⟩
  | dataReady =>
    obtain ⟨v, k, hsample⟩ := exists_samples .irq s
    exact ⟨_, .dataReady v k hsample⟩
  | fieldPresent =>
    obtain ⟨v, k, hsample⟩ := exists_samples .fd s
    exact ⟨_, .fieldPresent v k hsample⟩
  | setWakeOnField e => exact ⟨_, .setWakeOnField e⟩
  | setWakeOnDataReady e => exact ⟨_, .setWakeOnDataReady e⟩
  | beginSend =>
    obtain ⟨hsel, hdat⟩ := not_or.mp hv
    exact ⟨_, .beginSend (dir_ne_input.mp hsel) (dir_ne_output.mp hdat)⟩
  | endSend =>
    have hdat := dir_ne_input.mp hv
    exact ⟨_, .endSend hdat (hs.sendingEnabled hdat)⟩
  | sendByte v =>
    have hdat := dir_ne_input.mp hv
    exact ⟨_, .sendByte v hdat (hclk.trans (hs.sendingEnabled hdat))⟩
  | sendBuffer p len =>
    cases ha : bufferArgOk p len with
    | false => exact ⟨_, .sendBufferBadArgument p len (bufferArgOk_eq_false.mp ha)⟩
    | true =>
      obtain ⟨rfl, hlen⟩ := bufferArgOk_eq_true.mp ha
      obtain ⟨hin, hshort⟩ := not_or.mp fun h => hv ⟨rfl, hlen, h⟩
      have hdat := dir_ne_input.mp hin
      exact exists_completes_sendBuffer hlen hdat (hclk.trans (hs.sendingEnabled hdat))
        fun k hk hnone => hshort ⟨k, hk, hnone⟩
  | getByte =>
    obtain ⟨hsel, hdat⟩ := not_or.mp hv
    exact ⟨_, .getByte (hclk.trans (dir_ne_input.mp hsel)) (dir_ne_output.mp hdat)⟩
  | getBuffer p len =>
    cases ha : bufferArgOk p len with
    | false => exact ⟨_, .getBufferBadArgument p len (bufferArgOk_eq_false.mp ha)⟩
    | true =>
      obtain ⟨rfl, hlen⟩ := bufferArgOk_eq_true.mp ha
      obtain ⟨hsel, hdat⟩ := not_or.mp fun h => hv ⟨rfl, hlen, h⟩
      exact ⟨_, .getBuffer len hlen (hclk.trans (dir_ne_input.mp hsel)) (dir_ne_output.mp hdat)⟩

/-- Settles O48: the next states of `exec` are those of `Completes`, whose branches are set against the rows of the
table. -/
theorem completesUnlessViolation : Obligations.CompletesUnlessViolation := by
  intro i s hs
  simp only [exec_eq_next]
  exact ⟨fun ⟨_, h⟩ => h.not_violates hs, exists_completes_of_not_violates hs⟩

end Sys2Proof.Machine

/-!
PROOFS. The states in which a buffer operation with good arguments is a violation (43_transfer.md R154, R156;
60_exceptions.md R183), and the positions of the fields in the register views (10_state.md R35).
-/

namespace Sys2Proof.Machine

/-! ### The buffer operations stopped by a direction -/

section GoodArguments
variable {s : State} {len : Nat} (hlen : len ≠ 0)
include hlen

theorem exec_sendBuffer_of_idle (hd : s.dir.dat = .input) :
    exec (.sendBuffer true len) s = .fault (.notSending .sendBuffer s.trace) := by
  simp [exec, execSendBuffer, bufferArgOk_eq_true.mpr ⟨rfl, hlen⟩, hd]

theorem exec_getBuffer_of_input (hc : s.dir.clk = .input) :
    exec (.getBuffer true len) s = .fault (.notEnabled .getBuffer s.trace) := by
  simp [exec, execGetBuffer, bufferArgOk_eq_true.mpr ⟨rfl, hlen⟩, hc]

theorem exec_getBuffer_of_sending (hc : s.dir.clk = .output) (hd : s.dir.dat = .output) :
    exec (.getBuffer true len) s = .fault (.notIdle .getBuffer s.trace) := by
  simp [exec, execGetBuffer, bufferArgOk_eq_true.mpr ⟨rfl, hlen⟩, hc, hd]

end GoodArguments

/-- Settles O31: the argument check is passed, so the direction decides, and `getBuffer` tests `CLK` before `DAT`. -/
theorem bufferStateViolations : Obligations.BufferStateViolations := fun _ _ hlen =>
  ⟨exec_sendBuffer_of_idle hlen, exec_getBuffer_of_input hlen, exec_getBuffer_of_sending hlen⟩

/-! ### The register views -/

/-- A register of six lines is put together bit by bit, `SEL` last, so that the laws of `BitVec.concat` read it. -/
theorem linesReg_eq_concat (ls : Lines Bool) : linesReg ls =
    (((((BitVec.ofBool ls.fd).concat ls.irq).concat ls.pwr).concat ls.dat).concat ls.clk).concat ls.sel := rfl

/-- Each line has the bit of a six-bit register that R35 gives it, `SEL` the lowest. -/
theorem linesReg_getLsbD (ls : Lines Bool) :
    (linesReg ls).getLsbD 0 = ls.sel ∧ (linesReg ls).getLsbD 1 = ls.clk ∧ (linesReg ls).getLsbD 2 = ls.dat ∧
      (linesReg ls).getLsbD 3 = ls.pwr ∧ (linesReg ls).getLsbD 4 = ls.irq ∧ (linesReg ls).getLsbD 5 = ls.fd := by
  simp [linesReg_eq_concat, BitVec.getElem_concat]

theorem dirReg_getLsbD (s : State) :
    (dirReg s).getLsbD 0 = dirBit s.dir.sel ∧ (dirReg s).getLsbD 1 = dirBit s.dir.clk ∧
      (dirReg s).getLsbD 2 = dirBit s.dir.dat ∧ (dirReg s).getLsbD 3 = dirBit s.dir.pwr ∧
      (dirReg s).getLsbD 4 = dirBit s.dir.irq ∧ (dirReg s).getLsbD 5 = dirBit s.dir.fd := linesReg_getLsbD _

theorem wkReg_eq_concat (s : State) :
    wkReg s = ((BitVec.ofBool s.wk.gie).concat s.wk.dr).concat s.wk.fd := rfl

theorem wkReg_getLsbD (s : State) :
    (wkReg s).getLsbD 2 = s.wk.gie ∧ (wkReg s).getLsbD 1 = s.wk.dr ∧ (wkReg s).getLsbD 0 = s.wk.fd := by
  simp [wkReg_eq_concat, BitVec.getElem_concat]

/-- Settles O44: three of the views are six bits line by line, and bits 4 and 5 of `DIR` are the directions of two lines
that the invariant makes inputs. -/
theorem registerViews : Obligations.RegisterViews := by
  intro s ext
  obtain ⟨hsel, hclk, hdat, hpwr, hirq, hfd⟩ := dirReg_getLsbD s
  refine ⟨⟨hsel, hclk, hdat, hpwr⟩, fun hs => ⟨?_, ?_⟩, linesReg_getLsbD _, wkReg_getLsbD s, linesReg_getLsbD _⟩
  · rw [hirq, hs.irqIn, dirBit]
  · rw [hfd, hs.fdIn, dirBit]

end Sys2Proof.Machine
